-- ==== Sys2Proof/Word.lean ====
section
/-! DEFINITION. The word types of the SAVM core: the value width `W` and the instruction word
width `IW` of spec/00_scope.md rules R4 and R5. -/

namespace Sys2Proof

/-- A value of the machine: a signed integer of `W = 32` bits in two's complement (R4, R5).
Cells, stack entries, literals, cell addresses, jump distances and emitted values all have this
width. `BitVec.toInt` is the integer it denotes. DESIGN CHOICE: `W` is fixed at the spec's default
(log entry 1). -/
abbrev Word := BitVec 32

/-- One slot of the instruction memory: a word of `IW = 2 * W + 8 = 72` bits (R4, R44). -/
abbrev InstrWord := BitVec 72

end Sys2Proof
end

