-- ==== Sys2Proof/Config.lean ====
section
/-! DEFINITION. The implementation parameters of spec/00_scope.md rule R4: the fixed ones, and the
record of the two that a model takes as arguments (`STACK_DEPTH`, `CR_RESET`). The third open
parameter, `N`, is the length of the loaded program (`State.im`). -/

namespace Sys2Proof

/-- The three values of the comparison flag `CR` (R10). -/
inductive CmpResult where
  | equal
  | greaterThan
  | lessThan
  deriving DecidableEq, Repr

/-- `NCELLS`: the number of cells of the register file (R4, R7). -/
abbrev Config.numCells : Nat := 8

/-- `CELL_LO`: the lowest valid cell address (R4, R20). -/
def Config.cellLo : Int := 1

/-- `CELL_HI`: the highest valid cell address (R4, R20). -/
def Config.cellHi : Int := 8

/-- The open parameters of a run that are not the program (R4). They are inputs of the run, fixed
for its whole duration. -/
structure Params where
  /-- `STACK_DEPTH`: `none` is the unbounded stack, the spec's default (R4, R8, R23). -/
  stackDepth : Option Nat
  /-- `CR_RESET`: the value of `CR` before any CMP has written it (R4, R10). -/
  crReset : CmpResult
  deriving DecidableEq, Repr

/-- The parameters `State.reset` is built with: the spec's default stack (R4) and, for the flag
whose reset value the spec leaves open, Equal. DESIGN CHOICE, unsafe (log entry 4): no statement
rests on it. -/
def Params.default : Params := ⟨none, .equal⟩

end Sys2Proof
end

