-- ==== Sys2Proof/Syntax.lean ====
section
/-! DEFINITION. The instructions: failure kinds, tagged operands, operand fields, and `Instr` with
one constructor for each row of spec/opcode_table.json (spec/30_encoding.md rules R41 to R49). -/

namespace Sys2Proof

/-- The seven failure kinds of R81. Two of them also name the cause carried by a PFAIL word. -/
inductive FailureKind where
  | stackNotReady
  | invalidNumberOfParams
  | invalidOperand
  | illegalJumpInstruction
  | invalidCommand
  | invalidMemoryLocation
  | badIntegerLiteral
  deriving DecidableEq, Repr

/-- A tagged operand (R41): the tag is fixed when the line is parsed and never read differently.
Both tags carry any 32-bit value: an address outside 1 to 8 is only refused when it is used. -/
inductive Operand where
  | memoryLocation (n : Word)
  | integer (v : Word)
  deriving DecidableEq, Repr

/-- The operands of a dispatched instruction: operand count 0, 1 or 2 (R39, R41). -/
inductive Operands where
  | zero
  | one (o1 : Operand)
  | two (o1 o2 : Operand)
  deriving DecidableEq, Repr

/-- What the `cnt`, tag and value fields of a word with `opc` 1 to 11 say: operands, or the
reserved count 3 (R47, R49 b). -/
inductive OperandField where
  | ops (o : Operands)
  | count3
  deriving DecidableEq, Repr

/-- The eleven opcodes (R35, R45). -/
inductive Opcode where
  | add | mul | mov | push | pop | cmp | jz | jnz | jpos | output | exit
  deriving DecidableEq, Repr

/-- The content of one slot: one constructor per row of spec/opcode_table.json. Fields that the
decoder ignores (R49 d) are not part of it. -/
inductive Instr where
  /-- NONE: a blank or comment-only line (R33, R78). -/
  | nop
  /-- ADD (R66). -/
  | add (args : OperandField)
  /-- MUL (R67). -/
  | mul (args : OperandField)
  /-- MOV (R68). -/
  | mov (args : OperandField)
  /-- PUSH (R74). -/
  | push (args : OperandField)
  /-- POP (R75). -/
  | pop (args : OperandField)
  /-- CMP (R69). -/
  | cmp (args : OperandField)
  /-- JZ (R72). -/
  | jz (args : OperandField)
  /-- JNZ (R73). -/
  | jnz (args : OperandField)
  /-- JPOS (R71). -/
  | jpos (args : OperandField)
  /-- OUTPUT (R76). -/
  | output (args : OperandField)
  /-- EXIT (R77). -/
  | exit (args : OperandField)
  /-- Reserved opcode number 12 (R49 a, R80). -/
  | reserved12
  /-- Reserved opcode number 13 (R49 a, R80). -/
  | reserved13
  /-- Reserved opcode number 14 (R49 a, R80). -/
  | reserved14
  /-- PFAIL: the slot of a line that failed at the parse stage with this kind (R48, R79). -/
  | pfail (kind : FailureKind)
  deriving DecidableEq, Repr

/-- The instruction of an opcode with a given operand field. -/
def Opcode.instr : Opcode → OperandField → Instr
  | .add => .add
  | .mul => .mul
  | .mov => .mov
  | .push => .push
  | .pop => .pop
  | .cmp => .cmp
  | .jz => .jz
  | .jnz => .jnz
  | .jpos => .jpos
  | .output => .output
  | .exit => .exit

/-- The three cases of a parsed line (R41): the level at which the spec writes its semantics. -/
inductive Record where
  | nop
  | instr (op : Opcode) (ops : Operands)
  | parseFail (kind : FailureKind)
  deriving DecidableEq, Repr

end Sys2Proof
end

