-- ==== Sys2Proof/WellFormed.lean ====
section
/-! DEFINITION. Which instructions a word can hold (`Instr.wellFormed`), and which operand forms
the spec lists as valid for each opcode (`Instr.validForm`, R42). -/

namespace Sys2Proof

/-- The kinds a line can fail with at the parse stage (R41 c, R48). -/
def FailureKind.isParseStage : FailureKind → Bool
  | .invalidCommand => true
  | .invalidNumberOfParams => true
  | .invalidMemoryLocation => true
  | .badIntegerLiteral => true
  | .stackNotReady => false
  | .invalidOperand => false
  | .illegalJumpInstruction => false

/-- The instructions that some word holds: a PFAIL carries a parse-stage kind (R48); every operand
field of an opcode is encodable, the reserved count included (R44, R46, R49 b). -/
def Instr.wellFormed : Instr → Bool
  | .pfail k => k.isParseStage
  | .nop | .reserved12 | .reserved13 | .reserved14 => true
  | .add _ | .mul _ | .mov _ | .push _ | .pop _ | .cmp _ => true
  | .jz _ | .jnz _ | .jpos _ | .output _ | .exit _ => true

/-- The operand forms of a conditional jump (R42): `i`, or `v,i`, with a `v` of any address (log
entry 15). -/
def OperandField.validJump : OperandField → Bool
  | .ops (.one (.integer _)) => true
  | .ops (.two _ (.integer _)) => true
  | _ => false

/-- The operand syntax summary of R42: the valid forms of each opcode. A NONE slot has no operand
and is valid; a reserved word, a PFAIL word and a reserved count are forms of no opcode.
DESIGN CHOICE, safe (log entry 15): a cell operand may have any address here. R42's legend has only
the cell tokens `M1` to `M8`, its text the forms without InvalidNumberOfParams and InvalidOperand;
the text is followed, so that `MOV M9,1` is a valid form that fails when its address is used. -/
def Instr.validForm : Instr → Bool
  | .nop => true
  | .add args | .mul args | .exit args =>
      match args with
      | .ops .zero => true
      | _ => false
  | .mov args =>
      match args with
      | .ops (.two (.memoryLocation _) _) => true
      | _ => false
  | .cmp args =>
      match args with
      | .ops (.two _ _) => true
      | _ => false
  | .push args | .output args =>
      match args with
      | .ops (.one _) => true
      | _ => false
  | .pop args =>
      match args with
      | .ops (.one (.memoryLocation _)) => true
      | _ => false
  | .jz args | .jnz args | .jpos args => args.validJump
  | .reserved12 | .reserved13 | .reserved14 | .pfail _ => false

end Sys2Proof
end

