-- ==== Sys2Proof/Decode.lean ====
section
/-! DEFINITION. The decoder and the encoder of the 72-bit instruction word (spec/30_encoding.md
rules R44 to R49), and the reading of a sized bit string as an instruction. -/

namespace Sys2Proof

/-- The fields of the one instruction format (R44), most significant first. -/
structure Fields where
  opc : BitVec 4
  cnt : BitVec 2
  t1 : BitVec 1
  t2 : BitVec 1
  v1 : Word
  v2 : Word
  deriving DecidableEq, Repr

/-- The field split of a word: `opc` 71:68, `cnt` 67:66, `t1` 65, `t2` 64, `v1` 63:32, `v2` 31:0
(R44). -/
def Fields.ofWord (w : InstrWord) : Fields where
  opc := w.extractLsb' 68 4
  cnt := w.extractLsb' 66 2
  t1 := w.extractLsb' 65 1
  t2 := w.extractLsb' 64 1
  v1 := w.extractLsb' 32 32
  v2 := w.extractLsb' 0 32

/-- The word with the given fields (R44). -/
def Fields.toWord (f : Fields) : InstrWord :=
  (f.opc ++ f.cnt ++ f.t1 ++ f.t2 ++ f.v1 ++ f.v2 : BitVec (4 + 2 + 1 + 1 + 32 + 32))

/-- A present operand (R46): tag 0 is `Integer`, tag 1 is `MemoryLocation`; the whole value field
is the value. -/
def decodeOperand (t : BitVec 1) (v : Word) : Operand :=
  if t = 1#1 then .memoryLocation v else .integer v

/-- The operands selected by `cnt` (R47); the tag and value of an absent operand are ignored. -/
def Fields.operandField (f : Fields) : OperandField :=
  match f.cnt.toNat with
  | 0 => .ops .zero
  | 1 => .ops (.one (decodeOperand f.t1 f.v1))
  | 2 => .ops (.two (decodeOperand f.t1 f.v1) (decodeOperand f.t2 f.v2))
  | _ => .count3

/-- The numeric code of a failure kind (R81). -/
def FailureKind.code : FailureKind → Nat
  | .stackNotReady => 1
  | .invalidNumberOfParams => 2
  | .invalidOperand => 3
  | .illegalJumpInstruction => 4
  | .invalidCommand => 5
  | .invalidMemoryLocation => 6
  | .badIntegerLiteral => 7

/-- `decodePFAIL` of R48: the kind a PFAIL word reports, from `v2` read as an unsigned number. -/
def decodePFAIL (v2 : Word) : FailureKind :=
  match v2.toNat with
  | 2 => .invalidNumberOfParams
  | 5 => .invalidCommand
  | 6 => .invalidMemoryLocation
  | 7 => .badIntegerLiteral
  | _ => .invalidCommand

/-- The decoder (R47), total on the words of 72 bits: the opcode numbers of R45 and, for each, the
part of the word that R47 reads. -/
def decode (w : InstrWord) : Instr :=
  let f := Fields.ofWord w
  match f.opc.toNat with
  | 0 => .nop
  | 1 => .add f.operandField
  | 2 => .mul f.operandField
  | 3 => .mov f.operandField
  | 4 => .push f.operandField
  | 5 => .pop f.operandField
  | 6 => .cmp f.operandField
  | 7 => .jz f.operandField
  | 8 => .jnz f.operandField
  | 9 => .jpos f.operandField
  | 10 => .output f.operandField
  | 11 => .exit f.operandField
  | 12 => .reserved12
  | 13 => .reserved13
  | 14 => .reserved14
  | _ => .pfail (decodePFAIL f.v2)

/-- The instruction record of a slot (R41): what R47's `decode` returns for it. A reserved count
is the parse-stage failure InvalidNumberOfParams, a reserved opcode InvalidCommand (R49). -/
def OperandField.record (op : Opcode) : OperandField → Record
  | .ops o => .instr op o
  | .count3 => .parseFail .invalidNumberOfParams

/-- The instruction record of an instruction (R41). -/
def Instr.record : Instr → Record
  | .nop => .nop
  | .add args => args.record .add
  | .mul args => args.record .mul
  | .mov args => args.record .mov
  | .push args => args.record .push
  | .pop args => args.record .pop
  | .cmp args => args.record .cmp
  | .jz args => args.record .jz
  | .jnz args => args.record .jnz
  | .jpos args => args.record .jpos
  | .output args => args.record .output
  | .exit args => args.record .exit
  | .reserved12 => .parseFail .invalidCommand
  | .reserved13 => .parseFail .invalidCommand
  | .reserved14 => .parseFail .invalidCommand
  | .pfail k => .parseFail k

/-- The numbered opcodes 1 to 11 of R45. -/
def opcodeOfNumber : Nat → Option Opcode
  | 1 => some .add
  | 2 => some .mul
  | 3 => some .mov
  | 4 => some .push
  | 5 => some .pop
  | 6 => some .cmp
  | 7 => some .jz
  | 8 => some .jnz
  | 9 => some .jpos
  | 10 => some .output
  | 11 => some .exit
  | _ => none

/-- R47's pseudocode, test by test, straight from a word to the record. It is not what the machine
runs: it is the reference that `(decode w).record` is held against. -/
def decodeRecord (w : InstrWord) : Record :=
  let opc := (w >>> 68).toNat
  let cnt := (w >>> 66).toNat % 4
  let v1 : Word := (w >>> 32).truncate 32
  let v2 : Word := w.truncate 32
  let operand (t : Bool) (v : Word) : Operand := if t then .memoryLocation v else .integer v
  if opc = 0 then .nop
  else if opc = 15 then .parseFail (decodePFAIL v2)
  else match opcodeOfNumber opc with
    | none => .parseFail .invalidCommand
    | some op =>
      if cnt = 3 then .parseFail .invalidNumberOfParams
      else if cnt = 2 then .instr op (.two (operand (w.getLsbD 65) v1) (operand (w.getLsbD 64) v2))
      else if cnt = 1 then .instr op (.one (operand (w.getLsbD 65) v1))
      else .instr op .zero

/-! ### Encoding -/

/-- The tag bit of an operand (R44). -/
def Operand.tag : Operand → BitVec 1
  | .memoryLocation _ => 1#1
  | .integer _ => 0#1

/-- The value field of an operand (R46). -/
def Operand.value : Operand → Word
  | .memoryLocation n => n
  | .integer v => v

/-- The word of an opcode number and an operand field; the fields of an absent operand are 0
(R50). The reserved count has every other field 0. -/
def encodeArgs (opc : BitVec 4) : OperandField → InstrWord
  | .ops .zero => Fields.toWord ⟨opc, 0, 0, 0, 0, 0⟩
  | .ops (.one o1) => Fields.toWord ⟨opc, 1, o1.tag, 0, o1.value, 0⟩
  | .ops (.two o1 o2) => Fields.toWord ⟨opc, 2, o1.tag, o2.tag, o1.value, o2.value⟩
  | .count3 => Fields.toWord ⟨opc, 3, 0, 0, 0, 0⟩

/-- The opcode number of each row (R45). -/
def Instr.opcodeNumber : Instr → BitVec 4
  | .nop => 0
  | .add _ => 1
  | .mul _ => 2
  | .mov _ => 3
  | .push _ => 4
  | .pop _ => 5
  | .cmp _ => 6
  | .jz _ => 7
  | .jnz _ => 8
  | .jpos _ => 9
  | .output _ => 10
  | .exit _ => 11
  | .reserved12 => 12
  | .reserved13 => 13
  | .reserved14 => 14
  | .pfail _ => 15

/-- The word the assembler stores for an instruction (R50); a reserved opcode has every other
field 0. -/
def encode (i : Instr) : InstrWord :=
  match i with
  | .nop | .reserved12 | .reserved13 | .reserved14 =>
      Fields.toWord ⟨i.opcodeNumber, 0, 0, 0, 0, 0⟩
  | .add args | .mul args | .mov args | .push args | .pop args | .cmp args
  | .jz args | .jnz args | .jpos args | .output args | .exit args =>
      encodeArgs i.opcodeNumber args
  | .pfail k => Fields.toWord ⟨i.opcodeNumber, 0, 0, 0, 0, BitVec.ofNat 32 k.code⟩

/-! ### Bit strings of a given length -/

/-- Why a bit string is not an instruction word. -/
inductive DecodeError where
  /-- More bits were given than the 72 of the one word length there is (R44, R50). -/
  | tooManyBits
  /-- The number does not fit in the bits it is said to have. -/
  | valueTooLarge
  deriving DecidableEq, Repr

/-- The instruction word of a bit string: `nbits` low bits given by `w`, the bits above them 0.
Rejects by name what is not a word of the machine. -/
def instrWordOf (nbits w : Nat) : Except DecodeError InstrWord :=
  if 72 < nbits then .error .tooManyBits
  else if 2 ^ nbits ≤ w then .error .valueTooLarge
  else .ok (BitVec.ofNat 72 w)

/-- The instruction of a bit string, or the name of what is wrong with it. -/
def decodeSized (nbits w : Nat) : Except DecodeError Instr :=
  (instrWordOf nbits w).map decode

/-- What the decoder reads from an instruction whose bits are `w`, bit 0 least significant. A slot
is one word and the machine has no bytes (R27), so the bits are the word itself. -/
def decodeTableWord (nbits w : Nat) : Option Instr :=
  (decodeSized nbits w).toOption

end Sys2Proof
end

