-- ==== Sys2Proof/Machine/State.lean ====
section
/-! DEFINITION. The machine state `(M, S, LIC, CR, ip, EV, FS)` of spec/10_state.md with the inputs
of a run beside it, the names a step can stop with, and the state after reset (R7 to R18). -/

namespace Sys2Proof.Machine

/-- The values of the last-instruction-category register `LIC` (R9). -/
inductive Category where
  | none
  | data
  | comparison
  | jump
  | exit
  deriving DecidableEq, Repr

/-- The values of the machine fault status `FS` (R15). -/
inductive FaultStatus where
  | noFault
  | fetchOutOfRange
  | stackOverflow
  deriving DecidableEq, Repr

/-- One event of the outward trace `EV` (R14). -/
inductive Event where
  /-- A value emitted by OUTPUT (R76). -/
  | output (v : Word)
  /-- The line in this slot failed with this kind (R81). -/
  | failure (slot : Int) (kind : FailureKind)
  deriving DecidableEq, Repr

/-- Why `step` takes no step. None of these is an instruction's doing: each says that the run
condition of R51 is false, so that the spec has no further step. -/
inductive Fault where
  /-- The run is complete, an EXIT was dispatched (R64). Raised by `step`; safe. -/
  | exitHalt
  /-- The run is complete, `ip ≥ N` (R64). Raised by `step`; safe. -/
  | endOfProgram
  /-- The run is faulted: `FS = FetchOutOfRange` (R59, R88). Raised by `step`; safe. -/
  | fetchOutOfRange
  /-- The run is faulted: `FS = StackOverflow` (R74, R88). Raised by `step`; safe. -/
  | stackOverflow
  deriving DecidableEq, Repr

/-- Refusals. No arm of `exec` refuses: every row of the opcode table has its meaning. -/
inductive Refusal where
  /-- The instruction with this mnemonic has no meaning yet. Raised by no arm; safe. -/
  | notModelled (mnemonic : String)
  deriving DecidableEq, Repr

/-- The whole state. The first two fields are inputs of a run, which no step writes (R4, R12). -/
structure State where
  /-- `STACK_DEPTH` and `CR_RESET` (R4). -/
  params : Params
  /-- `IM`: the program, slot 0 first (R12). -/
  im : List InstrWord
  /-- `M`: `M[1]` is entry 0, `M[8]` is entry 7 (R7). -/
  cells : Vector Word Config.numCells
  /-- `S`, top first (R8; log entry 8). -/
  stack : List Word
  /-- `LIC` (R9). -/
  lic : Category
  /-- `CR` (R10). -/
  cr : CmpResult
  /-- `ip`, an exact integer (R11). -/
  ip : Int
  /-- `EV`, oldest event first (R14). -/
  ev : List Event
  /-- `FS` (R15). -/
  fs : FaultStatus
  deriving DecidableEq, Repr

/-- `N` (`PROG_LEN`): the number of slots of the loaded program (R4, R12). -/
def State.progLen (s : State) : Nat := s.im.length

/-- The state after reset (R17), for the program the host has loaded and any parameters (R96). -/
def State.resetWith (params : Params) (im : List InstrWord) : State where
  params := params
  im := im
  cells := Vector.replicate Config.numCells 0
  stack := []
  lic := .none
  cr := params.crReset
  ip := 0
  ev := []
  fs := .noFault

/-- The machine right after reset with nothing loaded: the program of no lines, and the default
parameters. DESIGN CHOICE for `CR` and `N` (log entries 4 and 5); every other field is R17's. -/
def State.reset : State := State.resetWith Params.default []

end Sys2Proof.Machine
end

