-- ==== Sys2Proof/Machine/Flags.lean ====
section
/-! DEFINITION. The ALU (R65), the comparison flag (R69), the jump conditions (R71 to R73) and the
category map (R56). -/

namespace Sys2Proof.Machine

/-- `wrap_W(z)` of R6: the 32-bit value congruent to the integer `z` modulo `2^32`. -/
def wrapW (z : Int) : Word := BitVec.ofInt 32 z

/-- The sum of ADD: exact, then wrapped (R65, R66). -/
def addW (a b : Word) : Word := wrapW (a.toInt + b.toInt)

/-- The product of MUL: exact, then wrapped (R65, R67). -/
def mulW (a b : Word) : Word := wrapW (a.toInt * b.toInt)

/-- The value CMP gives `CR`: operand 1 against operand 2, signed and exact (R69). -/
def compareW (x y : Word) : CmpResult :=
  if x.toInt < y.toInt then .lessThan
  else if x.toInt > y.toInt then .greaterThan
  else .equal

/-- `condCR_JPOS` (R71). -/
def condCRJpos (cr : CmpResult) : Bool := cr = .greaterThan

/-- `condV_JPOS` (R71): signed. -/
def condVJpos (x : Word) : Bool := 0 < x.toInt

/-- `condCR_JZ` (R72). -/
def condCRJz (cr : CmpResult) : Bool := cr = .equal

/-- `condV_JZ` (R72). -/
def condVJz (x : Word) : Bool := x.toInt = 0

/-- `condCR_JNZ` (R73). -/
def condCRJnz (cr : CmpResult) : Bool := cr ≠ .equal

/-- `condV_JNZ` (R73). -/
def condVJnz (x : Word) : Bool := x.toInt ≠ 0

/-- The category map of R56. -/
def category : Opcode → Category
  | .add => .data
  | .mul => .data
  | .mov => .data
  | .push => .data
  | .pop => .data
  | .output => .data
  | .cmp => .comparison
  | .jz => .jump
  | .jnz => .jump
  | .jpos => .jump
  | .exit => .exit

end Sys2Proof.Machine
end

