-- ==== Sys2Proof/Machine/Ops.lean ====
section
/-! DEFINITION. The named operations on the state: one writer per field, the cell and stack
primitives (R21 to R25), failure entry (R84), machine faults (R88), the end of a step (R52), the
run condition and the fetch (R51, R52). -/

namespace Sys2Proof.Machine

/-! ### One writer per field -/

/-- Replace the cell with index `i`, that is `M[i + 1]` (R6). -/
def State.setCell (s : State) (i : Fin Config.numCells) (v : Word) : State :=
  { s with cells := s.cells.set i.val v }

/-- Replace the stack. -/
def State.setStack (s : State) (st : List Word) : State := { s with stack := st }

/-- `LIC <- c` (R6). -/
def State.setLic (s : State) (c : Category) : State := { s with lic := c }

/-- `CR <- r` (R6). -/
def State.setCr (s : State) (r : CmpResult) : State := { s with cr := r }

/-- `emit e`: append an event to the trace (R6, R14). -/
def State.emit (s : State) (e : Event) : State := { s with ev := s.ev ++ [e] }

/-- `fault F`: a machine fault sets `FS` and does nothing else (R88). -/
def State.machineFault (s : State) (f : FaultStatus) : State := { s with fs := f }

/-- `ip <- t` at the end of a step, with the step's last test: `ip < 0` is the machine fault
FetchOutOfRange and `ip` keeps its negative value (R52, R59). -/
def State.setIp (s : State) (t : Int) : State :=
  { s with ip := t, fs := if t < 0 then .fetchOutOfRange else s.fs }

/-! ### Cells -/

/-- The cell that an address names: index `a - 1` when `1 ≤ a ≤ 8` (signed), no cell otherwise
(R20). -/
def cellIndex (a : Word) : Option (Fin Config.numCells) :=
  if h : Config.cellLo ≤ a.toInt ∧ a.toInt ≤ Config.cellHi then
    some ⟨(a.toInt - Config.cellLo).toNat, by
      simp only [Config.cellLo, Config.cellHi, Config.numCells] at *; omega⟩
  else none

/-- An address is valid exactly when it names a cell (R20). -/
def validAddress (a : Word) : Bool := (cellIndex a).isSome

/-- Raw read of the cell with index `i` (R6). -/
def State.cell (s : State) (i : Fin Config.numCells) : Word := s.cells[i.val]

/-- `MemRead(a, 1)` (R21). -/
def State.memRead (s : State) (a : Word) : Except FailureKind Word :=
  match cellIndex a with
  | some i => .ok (s.cell i)
  | none => .error .invalidMemoryLocation

/-- `MemWrite(a, 1, v)` (R22). -/
def State.memWrite (s : State) (a v : Word) : Except FailureKind State :=
  match cellIndex a with
  | some i => .ok (s.setCell i v)
  | none => .error .invalidMemoryLocation

/-! ### The stack -/

/-- The size query `|S|` (R25). -/
def State.depth (s : State) : Nat := s.stack.length

/-- The append of `Push` without its capacity test. -/
def State.pushRaw (s : State) (v : Word) : State := s.setStack (v :: s.stack)

/-- `Pop()` (R24): the top and the state without it. -/
def State.pop (s : State) : Except FailureKind (Word × State) :=
  match s.stack with
  | v :: rest => .ok (v, s.setStack rest)
  | [] => .error .stackNotReady

/-- The stack is finite and `|S| = STACK_DEPTH` (R23). -/
def State.stackFull (s : State) : Bool := s.params.stackDepth = some s.depth

/-! ### The result of `execute` and the end of a step -/

/-- What `execute(op, count, o1, o2)` answers (R52, R55): success with the changed state and a jump
distance, failure having changed nothing, or a machine fault. -/
inductive Result where
  | ok (t : State) (dist : Word)
  | fail (k : FailureKind)
  | machineFault (f : FaultStatus)
  deriving DecidableEq, Repr

/-- Success without a jump, or the failure of the last primitive. -/
def Result.ofExcept : Except FailureKind State → Result
  | .ok t => .ok t 0
  | .error k => .fail k

/-- `Push(v)` (R23), as the last action of an instruction. -/
def State.push (s : State) (v : Word) : Result :=
  if s.stackFull then .machineFault .stackOverflow else .ok (s.pushRaw v) 0

/-- `ip <- ip + 1`, the common advance (R53, R54, R57, R58). -/
def State.advance (s : State) : State := s.setIp (s.ip + 1)

/-- The instruction pointer after a success with distance `d` (R57): relative to the instruction's
own slot, exact, and one slot on when `d` is 0. -/
def State.applyDistance (s : State) (d : Word) : State :=
  if d.toInt ≠ 0 then s.setIp (s.ip + d.toInt) else s.advance

/-- Taking a failure of kind `k` in the slot at `ip` (R84, without the `LIC` write of a dispatched
instruction): report it and go on with the next slot. Nothing is saved, there is no handler, and so
there is no return from it (R87). -/
def State.takeFailure (s : State) (k : FailureKind) : State :=
  (s.emit (.failure s.ip k)).advance

/-- The end of the step of a dispatched instruction (R52, R55 to R59): `LIC` gets the category
whether it succeeded or failed, then `ip` moves; a machine fault in `execute` only sets `FS`. -/
def State.finish (s : State) (c : Category) : Result → State
  | .ok t d => (t.setLic c).applyDistance d
  | .fail k => (s.setLic c).takeFailure k
  | .machineFault f => s.machineFault f

/-- Dispatch of a slot with `opc` 1 to 11 (R52, R55): the reserved count 3 is a parse-stage failure
and never reaches `execute` (R49 b, R80). -/
def dispatch (op : Opcode) (execute : Operands → State → Result) (args : OperandField)
    (s : State) : Host.Outcome State Fault Refusal :=
  match args with
  | .ops o => .next (s.finish (category op) (execute o s))
  | .count3 => .next (s.takeFailure .invalidNumberOfParams)

/-! ### The run loop -/

/-- The run condition (R51). -/
def State.runCondition (s : State) : Bool :=
  s.fs = .noFault ∧ 0 ≤ s.ip ∧ s.ip < s.progLen ∧ s.lic ≠ .exit

/-- The fetch of a step, or why no step is taken (R51, R52, R64): a machine fault first, then
ExitHalt, then EndOfProgram. -/
def State.fetch (s : State) : Except Fault InstrWord :=
  match s.fs with
  | .fetchOutOfRange => .error .fetchOutOfRange
  | .stackOverflow => .error .stackOverflow
  | .noFault =>
    if s.lic = .exit then .error .exitHalt
    else if s.ip < 0 then .error .fetchOutOfRange
    else match s.im[s.ip.toNat]? with
      | some w => .ok w
      | none => .error .endOfProgram

/-- The host asserts reset, at any time (R90, R94): every piece of state takes its reset value and
the loaded program stays. An action of the host between steps, never part of one. -/
def State.assertReset (s : State) : State := State.resetWith s.params s.im

end Sys2Proof.Machine
end

