-- ==== Sys2Proof/Machine/Operands.lean ====
section
/-! DEFINITION. How an operand becomes a value (R60): the machine's two
addressing modes, direct cell and immediate. -/

namespace Sys2Proof.Machine

/-- `resolve(o)` (R60): a cell operand is read through the bounds check, a literal is itself. -/
def State.resolve (s : State) : Operand → Except FailureKind Word
  | .memoryLocation n => s.memRead n
  | .integer v => .ok v

end Sys2Proof.Machine
end

