-- ==== Sys2Proof/Machine/Arith.lean ====
section
/-! DEFINITION. Stack arithmetic: ADD and MUL (spec/41_arith.md). -/

namespace Sys2Proof.Machine

/-- What ADD and MUL share (R66, R67): no operand, at least two entries; the first value popped is
the right-hand one. The result replaces them, so its push has no capacity test to meet (R66: "The
final `Push` cannot overflow a finite stack"; log entry 13). -/
def binaryOnStack (f : Word → Word → Word) (o : Operands) (s : State) : Result :=
  match o with
  | .zero =>
    match s.stack with
    | b :: a :: rest => .ok (s.setStack (f a b :: rest)) 0
    | _ => .fail .stackNotReady
  | .one _ => .fail .invalidNumberOfParams
  | .two _ _ => .fail .invalidNumberOfParams

/-- `execute(ADD, ..)` (R66). -/
def executeAdd (o : Operands) (s : State) : Result := binaryOnStack addW o s

/-- `execute(MUL, ..)` (R67). -/
def executeMul (o : Operands) (s : State) : Result := binaryOnStack mulW o s

/-- ADD (R66). -/
def execAdd (args : OperandField) (s : State) : Host.Outcome State Fault Refusal :=
  dispatch .add executeAdd args s

/-- MUL (R67). -/
def execMul (args : OperandField) (s : State) : Host.Outcome State Fault Refusal :=
  dispatch .mul executeMul args s

end Sys2Proof.Machine
end

