-- ==== Sys2Proof/Machine/Compare.lean ====
section
/-! DEFINITION. Compare: CMP (spec/43_cmp.md). -/

namespace Sys2Proof.Machine

/-- `execute(CMP, ..)` (R69): the only writer of `CR`, and only when it succeeds. -/
def executeCmp (o : Operands) (s : State) : Result :=
  match o with
  | .two o1 o2 =>
    match s.resolve o1 with
    | .error k => .fail k
    | .ok x =>
      match s.resolve o2 with
      | .error k => .fail k
      | .ok y => .ok (s.setCr (compareW x y)) 0
  | .one _ => .fail .invalidNumberOfParams
  | .zero => .fail .invalidNumberOfParams

/-- CMP (R69). -/
def execCmp (args : OperandField) (s : State) : Host.Outcome State Fault Refusal :=
  dispatch .cmp executeCmp args s

end Sys2Proof.Machine
end

