-- ==== Sys2Proof/Machine/Jump.lean ====
section
/-! DEFINITION. Conditional jumps: JPOS, JZ, JNZ (spec/44_jumps.md). -/

namespace Sys2Proof.Machine

/-- What the three jumps share (R70): the form is selected by the operand count; a jump changes no
state, it only answers a distance. -/
def executeJump (condCR : CmpResult → Bool) (condV : Word → Bool) (o : Operands) (s : State) :
    Result :=
  match o with
  | .one o1 =>
    if s.lic ≠ .comparison then .fail .illegalJumpInstruction
    else match o1 with
      | .memoryLocation _ => .fail .invalidOperand
      | .integer d => .ok s (if condCR s.cr then d else 0)
  | .two o1 o2 =>
    match o2 with
    | .memoryLocation _ => .fail .invalidOperand
    | .integer d =>
      match s.resolve o1 with
      | .error k => .fail k
      | .ok x => .ok s (if condV x then d else 0)
  | .zero => .fail .invalidNumberOfParams

/-- `execute(JPOS, ..)` (R71). -/
def executeJpos (o : Operands) (s : State) : Result := executeJump condCRJpos condVJpos o s

/-- `execute(JZ, ..)` (R72). -/
def executeJz (o : Operands) (s : State) : Result := executeJump condCRJz condVJz o s

/-- `execute(JNZ, ..)` (R73). -/
def executeJnz (o : Operands) (s : State) : Result := executeJump condCRJnz condVJnz o s

/-- JPOS (R71). -/
def execJpos (args : OperandField) (s : State) : Host.Outcome State Fault Refusal :=
  dispatch .jpos executeJpos args s

/-- JZ (R72). -/
def execJz (args : OperandField) (s : State) : Host.Outcome State Fault Refusal :=
  dispatch .jz executeJz args s

/-- JNZ (R73). -/
def execJnz (args : OperandField) (s : State) : Host.Outcome State Fault Refusal :=
  dispatch .jnz executeJnz args s

end Sys2Proof.Machine
end

