-- ==== Sys2Proof/Machine/Move.lean ====
section
/-! DEFINITION. Data move: MOV (spec/42_mov.md). -/

namespace Sys2Proof.Machine

/-- `execute(MOV, ..)` (R68): count, tag of operand 1, destination address, source, then the
write. -/
def executeMov (o : Operands) (s : State) : Result :=
  match o with
  | .two (.memoryLocation n) src =>
    if validAddress n then
      match s.resolve src with
      | .ok v => Result.ofExcept (s.memWrite n v)
      | .error k => .fail k
    else .fail .invalidMemoryLocation
  | .two (.integer _) _ => .fail .invalidOperand
  | .one _ => .fail .invalidNumberOfParams
  | .zero => .fail .invalidNumberOfParams

/-- MOV (R68). -/
def execMov (args : OperandField) (s : State) : Host.Outcome State Fault Refusal :=
  dispatch .mov executeMov args s

end Sys2Proof.Machine
end

