-- ==== Sys2Proof/Machine/OutputExit.lean ====
section
/-! DEFINITION. OUTPUT, EXIT, and the slots that hold no instruction: NONE, PFAIL and the reserved
opcode numbers (spec/46_output_exit.md). -/

namespace Sys2Proof.Machine

/-- `execute(OUTPUT, ..)` (R76). -/
def executeOutput (o : Operands) (s : State) : Result :=
  match o with
  | .one o1 =>
    match s.resolve o1 with
    | .error k => .fail k
    | .ok v => .ok (s.emit (.output v)) 0
  | .zero => .fail .invalidNumberOfParams
  | .two _ _ => .fail .invalidNumberOfParams

/-- `execute(EXIT, ..)` (R77): no check at all, and no change; the step cycle writes `LIC`. -/
def executeExit (_o : Operands) (s : State) : Result := .ok s 0

/-- OUTPUT (R76). -/
def execOutput (args : OperandField) (s : State) : Host.Outcome State Fault Refusal :=
  dispatch .output executeOutput args s

/-- EXIT (R77). -/
def execExit (args : OperandField) (s : State) : Host.Outcome State Fault Refusal :=
  dispatch .exit executeExit args s

/-- A NONE slot (R53, R78): `ip <- ip + 1`, nothing else. -/
def execNop (s : State) : Host.Outcome State Fault Refusal := .next s.advance

/-- A PFAIL word (R54, R79): a parse-stage failure, `LIC` not written. -/
def execPfail (k : FailureKind) (s : State) : Host.Outcome State Fault Refusal :=
  .next (s.takeFailure k)

/-- Opcode number 12, reserved (R49 a, R80). -/
def execReserved12 (s : State) : Host.Outcome State Fault Refusal :=
  .next (s.takeFailure .invalidCommand)

/-- Opcode number 13, reserved (R49 a, R80). -/
def execReserved13 (s : State) : Host.Outcome State Fault Refusal :=
  .next (s.takeFailure .invalidCommand)

/-- Opcode number 14, reserved (R49 a, R80). -/
def execReserved14 (s : State) : Host.Outcome State Fault Refusal :=
  .next (s.takeFailure .invalidCommand)

end Sys2Proof.Machine
end

