-- ==== Sys2Proof/Machine/Stack.lean ====
section
/-! DEFINITION. Stack transfer: PUSH and POP (spec/45_stack.md). -/

namespace Sys2Proof.Machine

/-- `execute(PUSH, ..)` (R74): the checks come before the capacity test of `Push`. -/
def executePush (o : Operands) (s : State) : Result :=
  match o with
  | .one o1 =>
    match s.resolve o1 with
    | .error k => .fail k
    | .ok v => s.push v
  | .zero => .fail .invalidNumberOfParams
  | .two _ _ => .fail .invalidNumberOfParams

/-- `execute(POP, ..)` (R75): count, tag, stack depth, address; then the pop and the write. -/
def executePop (o : Operands) (s : State) : Result :=
  match o with
  | .one (.memoryLocation n) =>
    match s.pop with
    | .error k => .fail k
    | .ok (v, t) =>
      if validAddress n then Result.ofExcept (t.memWrite n v) else .fail .invalidMemoryLocation
  | .one (.integer _) => .fail .invalidOperand
  | .zero => .fail .invalidNumberOfParams
  | .two _ _ => .fail .invalidNumberOfParams

/-- PUSH (R74). -/
def execPush (args : OperandField) (s : State) : Host.Outcome State Fault Refusal :=
  dispatch .push executePush args s

/-- POP (R75). -/
def execPop (args : OperandField) (s : State) : Host.Outcome State Fault Refusal :=
  dispatch .pop executePop args s

end Sys2Proof.Machine
end

