-- ==== Sys2Proof/Machine/Dispatch.lean ====
section
/-! DEFINITION. `exec`: the meaning of each instruction, one arm per constructor. -/

namespace Sys2Proof.Machine

/-- What a slot that holds this instruction does, in a step that is taken (R52). -/
def exec (i : Instr) (s : State) : Host.Outcome State Fault Refusal :=
  match i with
  | .nop => Sys2Proof.Machine.execNop s
  | .add args => Sys2Proof.Machine.execAdd args s
  | .mul args => Sys2Proof.Machine.execMul args s
  | .mov args => Sys2Proof.Machine.execMov args s
  | .push args => Sys2Proof.Machine.execPush args s
  | .pop args => Sys2Proof.Machine.execPop args s
  | .cmp args => Sys2Proof.Machine.execCmp args s
  | .jz args => Sys2Proof.Machine.execJz args s
  | .jnz args => Sys2Proof.Machine.execJnz args s
  | .jpos args => Sys2Proof.Machine.execJpos args s
  | .output args => Sys2Proof.Machine.execOutput args s
  | .exit args => Sys2Proof.Machine.execExit args s
  | .reserved12 => Sys2Proof.Machine.execReserved12 s
  | .reserved13 => Sys2Proof.Machine.execReserved13 s
  | .reserved14 => Sys2Proof.Machine.execReserved14 s
  | .pfail kind => Sys2Proof.Machine.execPfail kind s

end Sys2Proof.Machine
end

