-- ==== Sys2Proof/Machine/Load.lean ====
section
/-! DEFINITION. Placing a word where the next step fetches (the host's load, R96). -/

namespace Sys2Proof.Machine

/-- The program with word `w` in slot `n`, NONE words filling any slots missing below it. -/
def placeWord : List InstrWord → Nat → InstrWord → List InstrWord
  | [], 0, w => [w]
  | [], n + 1, w => 0 :: placeWord [] n w
  | _ :: rest, 0, w => w :: rest
  | x :: rest, n + 1, w => x :: placeWord rest n w

/-- The state with word `w` in the slot the next step fetches. Where the run condition (R51) is
false for another reason than a missing slot, what makes it false is put back to the reset value
(R17): a negative `ip`, a machine fault, `LIC = Exit`. -/
def State.placeAtFetch (s : State) (w : InstrWord) : State :=
  { s with
    im := placeWord s.im s.ip.toNat w
    ip := s.ip.toNat
    lic := if s.lic = .exit then .none else s.lic
    fs := .noFault }

end Sys2Proof.Machine
end

