-- ==== Sys2Proof/Machine/Step.lean ====
section
/-! DEFINITION. The step (R51, R52) and the host's way to place one instruction before it. -/

namespace Sys2Proof.Machine

/-- One step (R52): when the run condition holds, fetch the slot at `ip`, decode it and run it;
when it does not, no step is taken and the answer says why (R51, R64). -/
def step (s : State) : Host.Outcome State Fault Refusal :=
  match s.fetch with
  | .ok w => exec (decode w) s
  | .error f => .fault f

/-- `s` with the instruction whose bits are `w` in the slot the next step fetches. A slot is one
72-bit word (R44); a number that is no word of the machine leaves `s` as it is. -/
def State.withFetchWord (s : State) (nbits w : Nat) : State :=
  match instrWordOf nbits w with
  | .ok iw => s.placeAtFetch iw
  | .error _ => s

end Sys2Proof.Machine
end

