-- ==== Sys2Proof/Machine/Assembler.lean ====
section
/-! DEFINITION. The assembler syntax: from a line of text to an instruction, and from the lines of
a program to the words of the instruction memory (spec/30_encoding.md rules R33 to R43, R50). -/

namespace Sys2Proof.Machine

/-- A line of program text: its characters, without the line end (R12). -/
abbrev Line := List Char

/-- Whitespace is the space and the tab (R34). -/
def isBlank (c : Char) : Bool := c = ' ' || c = '\t'

/-- Everything from the first `;` is a comment (R34); there is no escape. -/
def stripComment (l : Line) : Line := l.takeWhile (· != ';')

/-- A text without its leading and trailing whitespace (R34, R37). -/
def trim (l : Line) : Line := ((l.dropWhile isBlank).reverse.dropWhile isBlank).reverse

/-- The statement of a line (R34). -/
def statementOf (l : Line) : Line := trim (stripComment l)

/-- The keyword token of a statement: its maximal leading run of non-whitespace (R35). -/
def keywordOf (st : Line) : Line := st.takeWhile (! isBlank ·)

/-- What follows the whitespace after the keyword (R35); empty means there is none. -/
def remainderOf (st : Line) : Line := (st.dropWhile (! isBlank ·)).dropWhile isBlank

/-- The letters `a` to `z` become `A` to `Z`; every other character stays (R35). -/
def upperCase (c : Char) : Char :=
  if 97 ≤ c.toNat ∧ c.toNat ≤ 122 then Char.ofNat (c.toNat - 32) else c

/-- The keyword table (R35). -/
def keywordTable : List (Line × Opcode) :=
  [(['A', 'D', 'D'], .add), (['M', 'U', 'L'], .mul), (['M', 'O', 'V'], .mov),
   (['P', 'U', 'S', 'H'], .push), (['P', 'O', 'P'], .pop), (['C', 'M', 'P'], .cmp),
   (['J', 'Z'], .jz), (['J', 'N', 'Z'], .jnz), (['J', 'P', 'O', 'S'], .jpos),
   (['O', 'U', 'T', 'P', 'U', 'T'], .output), (['E', 'X', 'I', 'T'], .exit)]

/-- The opcode of a keyword, after uppercase normalisation (R35). -/
def lookupKeyword (kw : Line) : Option Opcode := keywordTable.lookup (kw.map upperCase)

/-- The comma-separated pieces of a text, one more than it has commas; a piece may be empty
(R36). -/
def splitCommas : Line → List Line
  | [] => [[]]
  | c :: cs =>
    if c = ',' then [] :: splitCommas cs
    else match splitCommas cs with
      | t :: ts => (c :: t) :: ts
      | [] => [[c]]

/-- The argument tokens of a remainder (R36): none without a remainder. -/
def tokensOf : Line → List Line
  | [] => []
  | c :: cs => splitCommas (c :: cs)

/-- The number written by decimal digits. -/
def digitsValue (ds : Line) : Nat := ds.foldl (fun n c => 10 * n + (c.toNat - 48)) 0

/-- A decimal digit, `0` to `9`. -/
def isDigit (c : Char) : Bool := 48 ≤ c.toNat && c.toNat ≤ 57

/-- The integer written by an optional `-` and one or more decimal digits (R38). -/
def literalValue : Line → Option Int
  | '-' :: ds => if ds ≠ [] ∧ ds.all isDigit then some (-(digitsValue ds : Int)) else none
  | ds => if ds ≠ [] ∧ ds.all isDigit then some (digitsValue ds : Int) else none

/-- An integer literal in the 32-bit range, or the failure of a token that is none (R38). -/
def parseLiteral (t : Line) : Except FailureKind Operand :=
  match literalValue t with
  | some v =>
    if -2147483648 ≤ v ∧ v ≤ 2147483647 then .ok (.integer (wrapW v))
    else .error .badIntegerLiteral
  | none => .error .badIntegerLiteral

/-- The address value of a memory token's second character: its code point minus 48 (R37 a). -/
def cellAddress (c : Char) : Word := wrapW ((c.toNat : Int) - 48)

/-- Classification of a trimmed token (R37): `M` or `m` and one character is a cell address, in
range or not; `M` or `m` with any other length fails; anything else is read as a literal. -/
def classifyTrimmed (t : Line) : Except FailureKind Operand :=
  match t with
  | [] => parseLiteral t
  | c :: rest =>
    if c = 'M' ∨ c = 'm' then
      match rest with
      | [a] => .ok (.memoryLocation (cellAddress a))
      | _ => .error .invalidMemoryLocation
    else parseLiteral t

/-- Classification of an argument token (R37). -/
def classify (t : Line) : Except FailureKind Operand := classifyTrimmed (trim t)

/-- The operands of the tokens, in token order (R36, R39): three or more tokens fail before any is
classified, then the tokens are classified from left to right (R40). -/
def operandsOf (ts : List Line) : Except FailureKind Operands :=
  match ts with
  | [] => .ok .zero
  | [a] =>
    match classify a with
    | .ok o1 => .ok (.one o1)
    | .error k => .error k
  | [a, b] =>
    match classify a with
    | .error k => .error k
    | .ok o1 =>
      match classify b with
      | .ok o2 => .ok (.two o1 o2)
      | .error k => .error k
  | _ => .error .invalidNumberOfParams

/-- The instruction of an opcode and what its tokens read as: a failure of the tokens is the
failure of the line (R40, R41). -/
def instrOf (op : Opcode) : Except FailureKind Operands → Instr
  | .ok o => op.instr (.ops o)
  | .error k => .pfail k

/-- A statement as an instruction: keyword, then token count, then tokens (R35 to R40). -/
def parseStatement (st : Line) : Instr :=
  match lookupKeyword (keywordOf st) with
  | none => .pfail .invalidCommand
  | some op => instrOf op (operandsOf (tokensOf (remainderOf st)))

/-- A line as an instruction (R33, R41): an empty statement is a NONE slot, a line that fails at
the parse stage is a PFAIL slot of its kind. -/
def parseLine (l : Line) : Instr :=
  match statementOf l with
  | [] => .nop
  | c :: cs => parseStatement (c :: cs)

/-- The word of a line (R50). -/
def assembleLine (l : Line) : InstrWord := encode (parseLine l)

/-- The instruction memory of a program text: one word for each line, in order (R12, R43, R50). -/
def assemble (ls : List Line) : List InstrWord := ls.map assembleLine

/-- The state after reset with a program text loaded (R17, R96). -/
def State.loadText (params : Params) (ls : List Line) : State :=
  State.resetWith params (assemble ls)

end Sys2Proof.Machine
end

