-- ==== Sys2Proof/Machine/Execute.lean ====
section
/-! DEFINITION. `execute(op, count, o1, o2)` of R52 as one function of the opcode, for statements
about the step cycle (spec/40_step_cycle.md). -/

namespace Sys2Proof.Machine

/-- The function that R55 calls: one case per opcode (files 41 to 46 of spec/). -/
def execute : Opcode → Operands → State → Result
  | .add => executeAdd
  | .mul => executeMul
  | .mov => executeMov
  | .push => executePush
  | .pop => executePop
  | .cmp => executeCmp
  | .jz => executeJz
  | .jnz => executeJnz
  | .jpos => executeJpos
  | .output => executeOutput
  | .exit => executeExit

end Sys2Proof.Machine
end

