-- ==== Sys2Proof/Safety.lean ====
section
/-! DEFINITION. The terms claims are made in: how a run stands and what the host observes of it
(R14, R51, R64), the states a run reaches, the invariant of every run, how the forms of an opcode
are written, and the tables of R82 and of R7 to R10 (which instruction can raise or write what). -/

namespace Sys2Proof.Machine

/-- Why a complete run ended (R64). -/
inductive HaltReason where
  | exitHalt
  | endOfProgram
  deriving DecidableEq, Repr

/-- How a run stands (R51, R64): a faulted run is never complete. -/
inductive RunStatus where
  | running
  | complete (r : HaltReason)
  | faulted
  deriving DecidableEq, Repr

/-- How the run that has led to `s` stands (R64). ExitHalt takes precedence over EndOfProgram. A
negative `ip` counts as faulted (R59). -/
def State.status (s : State) : RunStatus :=
  if s.fs ≠ .noFault then .faulted
  else if s.lic = .exit then .complete .exitHalt
  else if s.ip < 0 then .faulted
  else if s.progLen ≤ s.ip then .complete .endOfProgram
  else .running

/-- The values OUTPUT emitted, in order (R14). -/
def outputs : List Event → List Word
  | [] => []
  | .output v :: es => v :: outputs es
  | .failure _ _ :: es => outputs es

/-- The failure reports, in order (R14). -/
def failures : List Event → List (Int × FailureKind)
  | [] => []
  | .output _ :: es => failures es
  | .failure i k :: es => (i, k) :: failures es

/-- `Reaches s t`: some number of steps leads from `s` to `t` (R51). -/
inductive Reaches (s : State) : State → Prop where
  | refl : Reaches s s
  | step {t u : State} : Reaches s t → step t = .next u → Reaches s u

/-- What holds in every state of every run, whatever the program and the parameters. -/
structure Inv (s : State) : Prop where
  /-- `ip` is at least `-2^(W-1)` (R11). -/
  ipLow : -2147483648 ≤ s.ip
  /-- `ip` is at most `N - 1 + 2^(W-1)` (R11). -/
  ipHigh : s.ip ≤ (s.progLen : Int) - 1 + 2147483648
  /-- `FS = FetchOutOfRange` exactly when `ip < 0` (R59). -/
  fetchFault : s.fs = .fetchOutOfRange ↔ s.ip < 0
  /-- Only a jump leaves `ip` below 0 (R59). -/
  fetchFaultJump : s.fs = .fetchOutOfRange → s.lic = .jump
  /-- A finite stack is never over its capacity (R23). -/
  stackFits : ∀ d, s.params.stackDepth = some d → s.depth ≤ d
  /-- StackOverflow needs a finite stack, and leaves it full (R74, R88). -/
  overflowFull : s.fs = .stackOverflow → s.params.stackDepth = some s.depth
  /-- Every failure report names a slot of the program (R14). -/
  failureSlots : ∀ i k, Event.failure i k ∈ s.ev → 0 ≤ i ∧ i < s.progLen
  /-- `LIC = None` is the state before the first dispatch: cells, stack and flag are as at reset and
  nothing was emitted but failures of the parse stage (R9, R54). -/
  undispatched : s.lic = .none →
    (∀ i, s.cell i = 0) ∧ s.stack = [] ∧ s.cr = s.params.crReset ∧
      ∀ e ∈ s.ev, ∃ i k, e = .failure i k ∧ k.isParseStage = true

/-! ### The words of the claims about one step -/

/-- The value an operand has in `s` (R60): a literal is itself, a cell address names one of the
eight cells. -/
def Resolves (s : State) : Operand → Word → Prop
  | .integer u, v => v = u
  | .memoryLocation a, v => ∃ i : Fin 8, a.toInt = i.val + 1 ∧ v = s.cell i

/-- An operand whose cell address is outside 1 to 8 (R20). -/
def BadAddress : Operand → Prop
  | .integer _ => False
  | .memoryLocation a => a.toInt < 1 ∨ 8 < a.toInt

/-- An argument token that reads as the operand `o` (R36 to R38). -/
def ArgToken (a : Line) (o : Operand) : Prop :=
  ',' ∉ a ∧ ';' ∉ a ∧ classify a = .ok o

/-- A spelling of a keyword: some of its capital letters `A` to `Z` are written as the small letters
`a` to `z`, 32 code points above them (R35; log entry 10). -/
def CaseVariant (kw upper : Line) : Prop :=
  List.Forall₂ (fun k c => k = c ∨ ('a' ≤ k ∧ k ≤ 'z' ∧ k.toNat = c.toNat + 32)) kw upper

/-- How the forms of an opcode are written: its number and its operands' tags and values in a word,
whatever the fields of an absent operand hold (R44 to R47), and its keyword and operand tokens in a
line (R35 to R39). -/
structure WrittenAs (op : Opcode) (number : BitVec 4) (keyword : Line) : Prop where
  word0 : ∀ t1 t2 v1 v2,
    decode (Fields.toWord ⟨number, 0, t1, t2, v1, v2⟩) = op.instr (.ops .zero)
  word1 : ∀ o1 t2 v2,
    decode (Fields.toWord ⟨number, 1, Operand.tag o1, t2, o1.value, v2⟩) = op.instr (.ops (.one o1))
  word2 : ∀ o1 o2,
    decode (Fields.toWord ⟨number, 2, Operand.tag o1, Operand.tag o2, o1.value, o2.value⟩) =
      op.instr (.ops (.two o1 o2))
  text0 : parseLine keyword = op.instr (.ops .zero)
  text1 : ∀ a o1, ArgToken a o1 → parseLine (keyword ++ ' ' :: a) = op.instr (.ops (.one o1))
  text2 : ∀ a b o1 o2, ArgToken a o1 → ArgToken b o2 →
    parseLine (keyword ++ ' ' :: (a ++ ',' :: b)) = op.instr (.ops (.two o1 o2))

/-- The state after a dispatched instruction of category `c` failed with kind `k` (R58, R84). -/
def State.afterFailure (s : State) (c : Category) (k : FailureKind) : State :=
  { s with lic := c, ev := s.ev ++ [.failure s.ip k], ip := s.ip + 1 }

/-- The state after a failure of the parse stage (R54, R84). -/
def State.afterParseFailure (s : State) (k : FailureKind) : State :=
  { s with ev := s.ev ++ [.failure s.ip k], ip := s.ip + 1 }

/-- Where a successful jump with distance `d` leads from slot `ip` (R57). -/
def jumpTarget (ip : Int) (d : Word) : Int := if d = 0 then ip + 1 else ip + d.toInt

/-- The state after a successful jump instruction with distance `d`, 0 when the jump is not taken
(R57, R59, R70). -/
def State.afterJump (s : State) (d : Word) : State :=
  { s with
    lic := .jump
    ip := jumpTarget s.ip d
    fs := if jumpTarget s.ip d < 0 then .fetchOutOfRange else s.fs }

/-- R52's `step()` after the decode, over the instruction record, with the last test of R59. It is
not what the machine runs: it is the reference that `step` is held against. -/
def recordStep (r : Record) (s : State) : State :=
  let lastTest (t : State) : State := if t.ip < 0 then { t with fs := .fetchOutOfRange } else t
  match r with
  | .nop => lastTest { s with ip := s.ip + 1 }
  | .parseFail k => lastTest (s.afterParseFailure k)
  | .instr op o =>
    match execute op o s with
    | .ok t d => lastTest
        { t with lic := category op, ip := if d ≠ 0 then s.ip + d.toInt else s.ip + 1 }
    | .fail k => lastTest (s.afterFailure (category op) k)
    | .machineFault f => { s with fs := f }

/-- At most `k` steps from `s`, fewer when the run stops earlier (R51). -/
def runFor : Nat → State → State
  | 0, s => s
  | k + 1, s =>
    match step s with
    | .next t => runFor k t
    | .fault _ => s
    | .refused _ => s

/-! ### Tables over the instructions -/

/-- The kinds an instruction can fail with (the table of R82), the parse-stage failures of its
reserved forms included. -/
def canRaise : Instr → FailureKind → Bool
  | .nop, _ => false
  | .add .count3, k | .mul .count3, k | .mov .count3, k | .push .count3, k | .pop .count3, k
  | .cmp .count3, k | .jz .count3, k | .jnz .count3, k | .jpos .count3, k
  | .output .count3, k | .exit .count3, k => k = .invalidNumberOfParams
  | .add _, k | .mul _, k => k = .stackNotReady ∨ k = .invalidNumberOfParams
  | .mov _, k => k = .invalidNumberOfParams ∨ k = .invalidOperand ∨ k = .invalidMemoryLocation
  | .cmp _, k | .push _, k | .output _, k =>
      k = .invalidNumberOfParams ∨ k = .invalidMemoryLocation
  | .jz _, k | .jnz _, k | .jpos _, k =>
      k = .invalidNumberOfParams ∨ k = .invalidOperand ∨ k = .illegalJumpInstruction ∨
        k = .invalidMemoryLocation
  | .pop _, k =>
      k = .stackNotReady ∨ k = .invalidNumberOfParams ∨ k = .invalidOperand ∨
        k = .invalidMemoryLocation
  | .exit _, _ => false
  | .reserved12, k | .reserved13, k | .reserved14, k => k = .invalidCommand
  | .pfail k', k => k = k'

/-- The instructions that can write a cell (R7). -/
def writesCells : Instr → Bool
  | .mov _ | .pop _ => true
  | _ => false

/-- The instructions that access the stack (R8). -/
def usesStack : Instr → Bool
  | .push _ | .pop _ | .add _ | .mul _ => true
  | _ => false

/-- The instruction that writes `CR` (R10). -/
def writesFlag : Instr → Bool
  | .cmp _ => true
  | _ => false

/-- The slots that are dispatched, with their opcode (R52, R55). -/
def dispatched (i : Instr) : Option Opcode :=
  match i.record with
  | .instr op _ => some op
  | _ => none

/-- The 1-operand jumps, the only readers of `LIC` and `CR` among the instructions (R9, R10). -/
def isFlagJump : Instr → Bool
  | .jz (.ops (.one _)) | .jnz (.ops (.one _)) | .jpos (.ops (.one _)) => true
  | _ => false

end Sys2Proof.Machine
end

