-- ==== Sys2Proof/Certificates/Slice0/Obligations.lean ====
section
/-! DEFINITION. The statements for the provers. Where a statement has the hypothesis `0 ≤ s.ip`, it
is the part of the run condition (R51) that a step is taken under: `ip` is the index of a slot. -/

open Sys2Proof Sys2Proof.Machine

/-! ### Reset and the life of a run -/

/-- R17: after reset the state is exactly the table, for every program and every value of the two
parameters. No value of the model's own choosing is in it. -/
def Obligations.ResetGivesTheTableOfR17 : Prop :=
  ∀ (params : Params) (im : List InstrWord) (s : State), s = State.resetWith params im →
    (∀ i, s.cell i = 0) ∧ s.stack = [] ∧ s.lic = .none ∧ s.cr = params.crReset ∧ s.ip = 0 ∧
      s.ev = [] ∧ s.fs = .noFault ∧ s.im = im ∧ s.params = params

/-- R94, R18: asserting reset in any state of a run gives the same state, the one of R17 for the
loaded program: nothing persists across it. -/
def Obligations.ResetDiscardsTheRun : Prop :=
  ∀ s t : State, Reaches s t →
    t.assertReset = s.assertReset ∧ t.assertReset = State.resetWith s.params s.im

/-- R12, R32: a fetch always returns the slot content the host loaded; the parameters stay too. -/
def Obligations.NoStepWritesTheProgram : Prop :=
  ∀ s t : State, Reaches s t → t.im = s.im ∧ t.params = s.params

/-! ### The step cycle -/

/-- A step runs the instruction decoded from the slot at `ip`, and nothing else around it (R52). -/
def Obligations.StepRunsTheDecodedInstruction : Prop :=
  ∀ s : State, s.runCondition = true →
    ∃ w, s.im[s.ip.toNat]? = some w ∧ step s = exec (decode w) s

/-- R51: a step is taken exactly when the run condition holds. -/
def Obligations.StepTakenIffRunCondition : Prop :=
  ∀ s : State, (∃ t, step s = .next t) ↔
    (s.fs = .noFault ∧ 0 ≤ s.ip ∧ s.ip < s.im.length ∧ s.lic ≠ .exit)

/-- R64, R88: why no step is taken. ExitHalt takes precedence over EndOfProgram, a machine fault
over both, and the step never refuses. That the end of a run is a fault of these names is the
model's choice (log entry 6). The second disjunct of the fetchOutOfRange clause is a state that no
run reaches, where the answer is the model's choice too (log entry 14). -/
def Obligations.StopNamesItsReason : Prop :=
  ∀ s : State,
    (step s = .fault .exitHalt ↔ s.fs = .noFault ∧ s.lic = .exit) ∧
    (step s = .fault .endOfProgram ↔ s.fs = .noFault ∧ s.lic ≠ .exit ∧ (s.im.length : Int) ≤ s.ip) ∧
    (step s = .fault .stackOverflow ↔ s.fs = .stackOverflow) ∧
    (step s = .fault .fetchOutOfRange ↔
      s.fs = .fetchOutOfRange ∨ (s.fs = .noFault ∧ s.lic ≠ .exit ∧ s.ip < 0)) ∧
    (∀ r, step s ≠ .refused r)

/-- R52 whole: a step is the spec's pseudocode over the instruction record that R47's pseudocode
gives for the fetched word. -/
def Obligations.StepFollowsThePseudocode : Prop :=
  ∀ (s : State) (w : InstrWord), s.runCondition = true → s.im[s.ip.toNat]? = some w →
    step s = .next (recordStep (decodeRecord w) s)

/-- R52 at the text level, through R50: with an assembled program loaded, a step runs what the line
at `ip` parses to. -/
def Obligations.StepRunsTheParsedLine : Prop :=
  ∀ (ls : List Line) (s : State) (l : Line), s.im = assemble ls → s.runCondition = true →
    ls[s.ip.toNat]? = some l → step s = exec (parseLine l) s

/-- R55, R56, R53, R54: a dispatched instruction leaves its category in `LIC` whether it succeeds or
fails; only a PUSH that ends in StackOverflow leaves `LIC` alone; a slot that is not dispatched
does not write it. -/
def Obligations.EveryDispatchWritesTheCategory : Prop :=
  ∀ (i : Instr) (s t : State), exec i s = .next t →
    (∀ op, dispatched i = some op →
      t.lic = category op ∨ (op = .push ∧ t = { s with fs := .stackOverflow })) ∧
    (dispatched i = none → t.lic = s.lic)

/-- R14, R85, R86: a step appends at most one event; an `Output` only by OUTPUT, a `Failure` with
the index of the slot that is executing. -/
def Obligations.AtMostOneEventPerStep : Prop :=
  ∀ (i : Instr) (s t : State), exec i s = .next t →
    t.ev = s.ev ∨
    (∃ v args, i = .output args ∧ t.ev = s.ev ++ [.output v]) ∨
    (∃ k, t.ev = s.ev ++ [.failure s.ip k])

/-- R61, R84: an instruction or line that fails changes nothing but `LIC` (when it was dispatched),
the trace and `ip`. -/
def Obligations.FailureChangesNothingElse : Prop :=
  ∀ (i : Instr) (s t : State) (j : Int) (k : FailureKind), 0 ≤ s.ip →
    exec i s = .next t → t.ev = s.ev ++ [.failure j k] →
    j = s.ip ∧
      t = { s with
        lic := (match dispatched i with | some op => category op | none => s.lic)
        ev := s.ev ++ [.failure s.ip k]
        ip := s.ip + 1 }

/-- R82: which slot content can raise which kind: no instruction raises a kind outside the table,
and every entry of the table for the eleven opcodes is met by some operands in some state. -/
def Obligations.FailureKindsAreTheTableOfR82 : Prop :=
  (∀ (i : Instr) (s t : State) (j : Int) (k : FailureKind), exec i s = .next t →
    t.ev = s.ev ++ [.failure j k] → canRaise i k = true) ∧
  (∀ (op : Opcode) (k : FailureKind), canRaise (op.instr (.ops .zero)) k = true →
    ∃ (o : Operands) (s t : State), 0 ≤ s.ip ∧ exec (op.instr (.ops o)) s = .next t ∧
      t.ev = s.ev ++ [.failure s.ip k])

/-- R42: a valid form never raises InvalidNumberOfParams or InvalidOperand, and every other form of
an opcode, EXIT apart (R77), fails in every state, with one of those two kinds or, for a 1-operand
jump with a cell operand, possibly with IllegalJumpInstruction first (R62). That a cell operand of
any address makes a valid form is the model's choice (log entry 15). -/
def Obligations.ValidFormsAreTheOnesThatCanExecute : Prop :=
  ∀ (op : Opcode) (o : Operands) (s t : State), 0 ≤ s.ip →
    exec (op.instr (.ops o)) s = .next t →
    ((op.instr (.ops o)).validForm = true → ∀ j,
      t.ev ≠ s.ev ++ [.failure j .invalidNumberOfParams] ∧
        t.ev ≠ s.ev ++ [.failure j .invalidOperand]) ∧
    ((op.instr (.ops o)).validForm = false → op ≠ .exit →
      t = s.afterFailure (category op) .invalidNumberOfParams ∨
      t = s.afterFailure (category op) .invalidOperand ∨
      (isFlagJump (op.instr (.ops o)) = true ∧ s.lic ≠ .comparison ∧
        t = s.afterFailure (category op) .illegalJumpInstruction))

/-! ### Frames over all instructions -/

/-- R7, R8, R10, R12: only MOV and POP change a cell, only PUSH, POP, ADD and MUL change the stack,
only CMP changes `CR`, nothing changes the program. -/
def Obligations.OnlyTheNamedInstructionsWrite : Prop :=
  ∀ (i : Instr) (s t : State), exec i s = .next t →
    (writesCells i = false → ∀ a, t.memRead a = s.memRead a) ∧
    (usesStack i = false → t.stack = s.stack) ∧
    (writesFlag i = false → t.cr = s.cr) ∧
    t.im = s.im ∧ t.params = s.params

/-- R68, R75, R22: the only address a MOV or a POP can store to is that of its first operand: every
other address reads as before, and no other field is written but those named. -/
def Obligations.StoresReachOnlyTheDestination : Prop :=
  ∀ (n : Word) (src : Operand) (s t : State),
    (exec (.mov (.ops (.two (.memoryLocation n) src))) s = .next t →
      (∀ a, a ≠ n → t.memRead a = s.memRead a) ∧ t.stack = s.stack ∧ t.cr = s.cr) ∧
    (exec (.pop (.ops (.one (.memoryLocation n)))) s = .next t →
      (∀ a, a ≠ n → t.memRead a = s.memRead a) ∧ t.cr = s.cr)

/-- R22: a write followed by a read of the same address gives the value written, every other
address reads as before, no other state changes; outside 1 to 8 both raise
InvalidMemoryLocation. -/
def Obligations.CellReadAfterWrite : Prop :=
  ∀ (s : State) (a v : Word),
    (1 ≤ a.toInt ∧ a.toInt ≤ 8 → ∃ t, s.memWrite a v = .ok t ∧ t.memRead a = .ok v ∧
      (∀ b, b ≠ a → t.memRead b = s.memRead b) ∧ t = { s with cells := t.cells }) ∧
    (a.toInt < 1 ∨ 8 < a.toInt → s.memWrite a v = .error .invalidMemoryLocation ∧
      s.memRead a = .error .invalidMemoryLocation)

/-! ### The instructions -/

/-- R65: the wrapped result is a 32-bit value congruent to the exact one, and is the exact one when
that fits. -/
def Obligations.WrapKeepsTheLowBits : Prop :=
  ∀ z : Int, -2147483648 ≤ (wrapW z).toInt ∧ (wrapW z).toInt ≤ 2147483647 ∧
    (4294967296 : Int) ∣ (wrapW z).toInt - z ∧
    (-2147483648 ≤ z → z ≤ 2147483647 → (wrapW z).toInt = z)

/-- R66: ADD, its word, its line and its effect in every form. -/
def Obligations.AddPopsTwoAndPushesTheSum : Prop :=
  WrittenAs .add 1 "ADD".toList ∧ ∀ s : State, 0 ≤ s.ip →
    (∀ b a rest, s.stack = b :: a :: rest →
      exec (.add (.ops .zero)) s = .next { s with
        stack := BitVec.ofInt 32 (a.toInt + b.toInt) :: rest, lic := .data, ip := s.ip + 1 }) ∧
    (s.stack.length < 2 →
      exec (.add (.ops .zero)) s = .next (s.afterFailure .data .stackNotReady)) ∧
    (∀ o, o ≠ .zero →
      exec (.add (.ops o)) s = .next (s.afterFailure .data .invalidNumberOfParams))

/-- R67: MUL, its word, its line and its effect in every form. -/
def Obligations.MulPopsTwoAndPushesTheProduct : Prop :=
  WrittenAs .mul 2 "MUL".toList ∧ ∀ s : State, 0 ≤ s.ip →
    (∀ b a rest, s.stack = b :: a :: rest →
      exec (.mul (.ops .zero)) s = .next { s with
        stack := BitVec.ofInt 32 (a.toInt * b.toInt) :: rest, lic := .data, ip := s.ip + 1 }) ∧
    (s.stack.length < 2 →
      exec (.mul (.ops .zero)) s = .next (s.afterFailure .data .stackNotReady)) ∧
    (∀ o, o ≠ .zero →
      exec (.mul (.ops o)) s = .next (s.afterFailure .data .invalidNumberOfParams))

/-- R68: MOV, its word, its line and its effect in every form. -/
def Obligations.MovWritesTheDestinationCell : Prop :=
  WrittenAs .mov 3 "MOV".toList ∧ ∀ s : State, 0 ≤ s.ip →
    (∀ (n : Word) (i : Fin 8) (src : Operand) (v : Word), n.toInt = i.val + 1 → Resolves s src v →
      exec (.mov (.ops (.two (.memoryLocation n) src))) s = .next { s with
        cells := s.cells.set i.val v, lic := .data, ip := s.ip + 1 }) ∧
    (∀ (n : Word) (src : Operand), n.toInt < 1 ∨ 8 < n.toInt ∨ BadAddress src →
      exec (.mov (.ops (.two (.memoryLocation n) src))) s =
        .next (s.afterFailure .data .invalidMemoryLocation)) ∧
    (∀ (u : Word) (src : Operand), exec (.mov (.ops (.two (.integer u) src))) s =
      .next (s.afterFailure .data .invalidOperand)) ∧
    (∀ o, (∀ o1 o2, o ≠ .two o1 o2) →
      exec (.mov (.ops o)) s = .next (s.afterFailure .data .invalidNumberOfParams))

/-- R69: CMP, its word, its line and its effect in every form; a CMP that fails does not write `CR` and still leaves Comparison in
`LIC`. -/
def Obligations.CmpSetsTheFlagBySignedOrder : Prop :=
  WrittenAs .cmp 6 "CMP".toList ∧ ∀ s : State, 0 ≤ s.ip →
    (∀ (o1 o2 : Operand) (x y : Word), Resolves s o1 x → Resolves s o2 y →
      ∃ r, exec (.cmp (.ops (.two o1 o2))) s = .next { s with
          cr := r, lic := .comparison, ip := s.ip + 1 } ∧
        (r = .lessThan ↔ x.toInt < y.toInt) ∧ (r = .greaterThan ↔ x.toInt > y.toInt) ∧
        (r = .equal ↔ x.toInt = y.toInt)) ∧
    (∀ o1 o2 : Operand, BadAddress o1 ∨ BadAddress o2 →
      exec (.cmp (.ops (.two o1 o2))) s =
        .next (s.afterFailure .comparison .invalidMemoryLocation)) ∧
    (∀ o, (∀ o1 o2, o ≠ .two o1 o2) →
      exec (.cmp (.ops o)) s = .next (s.afterFailure .comparison .invalidNumberOfParams))

/-- R70, R71: JPOS, its word, its line, both forms and every failure. -/
def Obligations.JposJumpsWhenPositive : Prop :=
  WrittenAs .jpos 9 "JPOS".toList ∧ ∀ s : State, 0 ≤ s.ip →
    (∀ d : Word, s.lic = .comparison → exec (.jpos (.ops (.one (.integer d)))) s =
      .next (s.afterJump (if s.cr = .greaterThan then d else 0))) ∧
    (∀ (o1 : Operand) (x d : Word), Resolves s o1 x →
      exec (.jpos (.ops (.two o1 (.integer d)))) s =
        .next (s.afterJump (if x.toInt > 0 then d else 0))) ∧
    (∀ o1 : Operand, s.lic ≠ .comparison → exec (.jpos (.ops (.one o1))) s =
      .next (s.afterFailure .jump .illegalJumpInstruction)) ∧
    (∀ a : Word, s.lic = .comparison → exec (.jpos (.ops (.one (.memoryLocation a)))) s =
      .next (s.afterFailure .jump .invalidOperand)) ∧
    (∀ (o1 : Operand) (a : Word), exec (.jpos (.ops (.two o1 (.memoryLocation a)))) s =
      .next (s.afterFailure .jump .invalidOperand)) ∧
    (∀ (o1 : Operand) (d : Word), BadAddress o1 → exec (.jpos (.ops (.two o1 (.integer d)))) s =
      .next (s.afterFailure .jump .invalidMemoryLocation)) ∧
    exec (.jpos (.ops .zero)) s = .next (s.afterFailure .jump .invalidNumberOfParams)

/-- R70, R72: JZ, its word, its line, both forms and every failure. -/
def Obligations.JzJumpsWhenZeroOrEqual : Prop :=
  WrittenAs .jz 7 "JZ".toList ∧ ∀ s : State, 0 ≤ s.ip →
    (∀ d : Word, s.lic = .comparison → exec (.jz (.ops (.one (.integer d)))) s =
      .next (s.afterJump (if s.cr = .equal then d else 0))) ∧
    (∀ (o1 : Operand) (x d : Word), Resolves s o1 x →
      exec (.jz (.ops (.two o1 (.integer d)))) s =
        .next (s.afterJump (if x.toInt = 0 then d else 0))) ∧
    (∀ o1 : Operand, s.lic ≠ .comparison → exec (.jz (.ops (.one o1))) s =
      .next (s.afterFailure .jump .illegalJumpInstruction)) ∧
    (∀ a : Word, s.lic = .comparison → exec (.jz (.ops (.one (.memoryLocation a)))) s =
      .next (s.afterFailure .jump .invalidOperand)) ∧
    (∀ (o1 : Operand) (a : Word), exec (.jz (.ops (.two o1 (.memoryLocation a)))) s =
      .next (s.afterFailure .jump .invalidOperand)) ∧
    (∀ (o1 : Operand) (d : Word), BadAddress o1 → exec (.jz (.ops (.two o1 (.integer d)))) s =
      .next (s.afterFailure .jump .invalidMemoryLocation)) ∧
    exec (.jz (.ops .zero)) s = .next (s.afterFailure .jump .invalidNumberOfParams)

/-- R70, R73: JNZ, its word, its line, both forms and every failure. -/
def Obligations.JnzJumpsWhenNotZeroOrNotEqual : Prop :=
  WrittenAs .jnz 8 "JNZ".toList ∧ ∀ s : State, 0 ≤ s.ip →
    (∀ d : Word, s.lic = .comparison → exec (.jnz (.ops (.one (.integer d)))) s =
      .next (s.afterJump (if s.cr ≠ .equal then d else 0))) ∧
    (∀ (o1 : Operand) (x d : Word), Resolves s o1 x →
      exec (.jnz (.ops (.two o1 (.integer d)))) s =
        .next (s.afterJump (if x.toInt ≠ 0 then d else 0))) ∧
    (∀ o1 : Operand, s.lic ≠ .comparison → exec (.jnz (.ops (.one o1))) s =
      .next (s.afterFailure .jump .illegalJumpInstruction)) ∧
    (∀ a : Word, s.lic = .comparison → exec (.jnz (.ops (.one (.memoryLocation a)))) s =
      .next (s.afterFailure .jump .invalidOperand)) ∧
    (∀ (o1 : Operand) (a : Word), exec (.jnz (.ops (.two o1 (.memoryLocation a)))) s =
      .next (s.afterFailure .jump .invalidOperand)) ∧
    (∀ (o1 : Operand) (d : Word), BadAddress o1 → exec (.jnz (.ops (.two o1 (.integer d)))) s =
      .next (s.afterFailure .jump .invalidMemoryLocation)) ∧
    exec (.jnz (.ops .zero)) s = .next (s.afterFailure .jump .invalidNumberOfParams)

/-- R98, R70: a 1-operand jump directly after a dispatched instruction that is no CMP fails with
IllegalJumpInstruction; directly after a CMP, successful or failed, it does not, and slots that are
not dispatched make no difference. -/
def Obligations.FlagJumpNeedsAPrecedingCompare : Prop :=
  ∀ (i j : Instr) (s t : State), exec i s = .next t → 0 ≤ t.ip → t.fs = .noFault →
    isFlagJump j = true →
    (∀ op, dispatched i = some op → op ≠ .cmp →
      exec j t = .next (t.afterFailure .jump .illegalJumpInstruction)) ∧
    (dispatched i = some .cmp →
      exec j t ≠ .next (t.afterFailure .jump .illegalJumpInstruction)) ∧
    (dispatched i = none → t.lic = s.lic ∧ t.cr = s.cr)

/-- R74: PUSH, its word, its line and its effect in every form; StackOverflow only on a full finite stack and only after the
checks. -/
def Obligations.PushPutsTheValueOnTop : Prop :=
  WrittenAs .push 4 "PUSH".toList ∧ ∀ s : State, 0 ≤ s.ip →
    (∀ (o1 : Operand) (v : Word), Resolves s o1 v →
      (s.params.stackDepth ≠ some s.stack.length →
        exec (.push (.ops (.one o1))) s = .next { s with
          stack := v :: s.stack, lic := .data, ip := s.ip + 1 }) ∧
      (s.params.stackDepth = some s.stack.length →
        exec (.push (.ops (.one o1))) s = .next { s with fs := .stackOverflow })) ∧
    (∀ o1 : Operand, BadAddress o1 → exec (.push (.ops (.one o1))) s =
      .next (s.afterFailure .data .invalidMemoryLocation)) ∧
    (∀ o, (∀ o1, o ≠ .one o1) →
      exec (.push (.ops o)) s = .next (s.afterFailure .data .invalidNumberOfParams))

/-- R75: POP, its word, its line and its effect in every form; the checks come before the pop, StackNotReady first. -/
def Obligations.PopMovesTheTopToTheCell : Prop :=
  WrittenAs .pop 5 "POP".toList ∧ ∀ s : State, 0 ≤ s.ip →
    (∀ (n : Word) (i : Fin 8) (v : Word) (rest : List Word), n.toInt = i.val + 1 →
      s.stack = v :: rest →
      exec (.pop (.ops (.one (.memoryLocation n)))) s = .next { s with
        stack := rest, cells := s.cells.set i.val v, lic := .data, ip := s.ip + 1 }) ∧
    (∀ n : Word, s.stack = [] → exec (.pop (.ops (.one (.memoryLocation n)))) s =
      .next (s.afterFailure .data .stackNotReady)) ∧
    (∀ n : Word, s.stack ≠ [] → n.toInt < 1 ∨ 8 < n.toInt →
      exec (.pop (.ops (.one (.memoryLocation n)))) s =
        .next (s.afterFailure .data .invalidMemoryLocation)) ∧
    (∀ u : Word, exec (.pop (.ops (.one (.integer u)))) s =
      .next (s.afterFailure .data .invalidOperand)) ∧
    (∀ o, (∀ o1, o ≠ .one o1) →
      exec (.pop (.ops o)) s = .next (s.afterFailure .data .invalidNumberOfParams))

/-- 45_stack.md: "PUSH then POP round-trips the value into the target memory cell", with the whole
state after the two. -/
def Obligations.PushThenPopRoundTrips : Prop :=
  ∀ (s : State) (o1 : Operand) (v n : Word) (i : Fin 8), 0 ≤ s.ip → Resolves s o1 v →
    s.params.stackDepth ≠ some s.stack.length → n.toInt = i.val + 1 →
    ∃ t, exec (.push (.ops (.one o1))) s = .next t ∧
      exec (.pop (.ops (.one (.memoryLocation n)))) t = .next { s with
        cells := s.cells.set i.val v, lic := .data, ip := s.ip + 2 }

/-- R76: OUTPUT, its word, its line and its effect in every form. -/
def Obligations.OutputEmitsTheValue : Prop :=
  WrittenAs .output 10 "OUTPUT".toList ∧ ∀ s : State, 0 ≤ s.ip →
    (∀ (o1 : Operand) (v : Word), Resolves s o1 v →
      exec (.output (.ops (.one o1))) s = .next { s with
        ev := s.ev ++ [.output v], lic := .data, ip := s.ip + 1 }) ∧
    (∀ o1 : Operand, BadAddress o1 → exec (.output (.ops (.one o1))) s =
      .next (s.afterFailure .data .invalidMemoryLocation)) ∧
    (∀ o, (∀ o1, o ≠ .one o1) →
      exec (.output (.ops o)) s = .next (s.afterFailure .data .invalidNumberOfParams))

/-- R77, R64: EXIT, with any operands, writes Exit into `LIC` and moves on by one; with no machine
fault the run is then complete with ExitHalt and no further step is taken. Nothing else writes Exit
into `LIC`. -/
def Obligations.ExitCompletesTheRun : Prop :=
  WrittenAs .exit 11 "EXIT".toList ∧
  (∀ (s : State) (o : Operands), 0 ≤ s.ip →
    ∃ t, exec (.exit (.ops o)) s = .next t ∧ t = { s with lic := .exit, ip := s.ip + 1 } ∧
      (s.fs = .noFault → t.status = .complete .exitHalt ∧ ∀ u, step t ≠ .next u)) ∧
  (∀ (i : Instr) (s t : State), exec i s = .next t → t.lic = .exit →
    s.lic = .exit ∨ dispatched i = some .exit)

/-- R53, R78: a NONE word, whatever its other fields hold, only moves `ip` on by one. -/
def Obligations.NoneOnlyAdvances : Prop :=
  (∀ cnt t1 t2 v1 v2, decode (Fields.toWord ⟨0, cnt, t1, t2, v1, v2⟩) = .nop) ∧
  (∀ s : State, 0 ≤ s.ip → exec .nop s = .next { s with ip := s.ip + 1 })

/-- R54, R79: a PFAIL word reports the kind whose code is in `v2` (R48) and moves `ip` on by one;
`LIC` is not written. -/
def Obligations.PfailReportsItsKind : Prop :=
  (∀ cnt t1 t2 v1 v2, decode (Fields.toWord ⟨15, cnt, t1, t2, v1, v2⟩) = .pfail
    (if v2 = 2 then .invalidNumberOfParams
     else if v2 = 6 then .invalidMemoryLocation
     else if v2 = 7 then .badIntegerLiteral
     else .invalidCommand)) ∧
  (∀ (s : State) (k : FailureKind), 0 ≤ s.ip → exec (.pfail k) s = .next { s with
    ev := s.ev ++ [.failure s.ip k], ip := s.ip + 1 })

/-- R80: a reserved word is a parse-stage failure: opcode numbers 12 to 14 of kind InvalidCommand,
the count 3 of kind InvalidNumberOfParams; `LIC` is not written. -/
def Obligations.ReservedWordsFailAtTheParseStage : Prop :=
  (∀ cnt t1 t2 v1 v2, decode (Fields.toWord ⟨12, cnt, t1, t2, v1, v2⟩) = .reserved12 ∧
    decode (Fields.toWord ⟨13, cnt, t1, t2, v1, v2⟩) = .reserved13 ∧
    decode (Fields.toWord ⟨14, cnt, t1, t2, v1, v2⟩) = .reserved14) ∧
  (∀ (n : BitVec 4) (op : Opcode), opcodeOfNumber n.toNat = some op → ∀ t1 t2 v1 v2,
    decode (Fields.toWord ⟨n, 3, t1, t2, v1, v2⟩) = op.instr .count3) ∧
  (∀ s : State, 0 ≤ s.ip →
    (∀ i ∈ [Instr.reserved12, .reserved13, .reserved14],
      exec i s = .next { s with ev := s.ev ++ [.failure s.ip .invalidCommand], ip := s.ip + 1 }) ∧
    (∀ op : Opcode, exec (op.instr .count3) s = .next { s with
      ev := s.ev ++ [.failure s.ip .invalidNumberOfParams], ip := s.ip + 1 }))

/-! ### Machine faults -/

/-- R59, R74, R88: a step enters FetchOutOfRange only by a taken jump whose distance operand is
negative and larger in magnitude than the jump's own index, and StackOverflow only by a PUSH that
passed its checks on a full finite stack; either way no event is emitted. -/
def Obligations.MachineFaultsHaveTheirTwoCauses : Prop :=
  ∀ s t : State, step s = .next t → ∃ w, s.im[s.ip.toNat]? = some w ∧
    (t.fs = .fetchOutOfRange →
      ∃ (d : Word) (o : Operands), (o = .one (.integer d) ∨ ∃ o1, o = .two o1 (.integer d)) ∧
        (decode w = .jz (.ops o) ∨ decode w = .jnz (.ops o) ∨ decode w = .jpos (.ops o)) ∧
        s.ip + d.toInt < 0 ∧ t = { s with
          lic := .jump, ip := s.ip + d.toInt, fs := .fetchOutOfRange }) ∧
    (t.fs = .stackOverflow →
      (∃ o1 v, decode w = .push (.ops (.one o1)) ∧ Resolves s o1 v) ∧
      s.params.stackDepth = some s.stack.length ∧ t = { s with fs := .stackOverflow })

/-- R15, R88: `FS` is sticky: from a faulted state no step is taken and no other state is reached.
That `step` then answers a fault is the model's choice (log entry 6). -/
def Obligations.MachineFaultIsSticky : Prop :=
  ∀ s : State, s.fs ≠ .noFault →
    (∃ f, step s = .fault f) ∧ s.status = .faulted ∧ ∀ t, Reaches s t → t = s

/-- R23: with the unbounded stack no run meets StackOverflow. -/
def Obligations.UnboundedStackNeverOverflows : Prop :=
  ∀ (im : List InstrWord) (crReset : CmpResult) (t : State),
    Reaches (State.resetWith ⟨none, crReset⟩ im) t → t.fs ≠ .stackOverflow

/-! ### Invariants -/

/-- The state after reset meets the invariant, for every program and parameters. -/
def Obligations.ResetMeetsTheInvariant : Prop :=
  ∀ (params : Params) (im : List InstrWord), Inv (State.resetWith params im)

/-- Every step keeps the invariant: `ip` in the range of R11, FetchOutOfRange exactly when `ip` is
negative, a finite stack within its capacity, failure reports that name slots of the program, and
`LIC = None` only before the first dispatch. -/
def Obligations.EveryStepKeepsTheInvariant : Prop :=
  ∀ s t : State, Inv s → step s = .next t → Inv t

/-! ### What the machine cannot observe -/

/-- R9: any two values of `LIC` other than Comparison and Exit are followed by the same events, the
same cells and stack, and the same end of the run, for any number of steps. -/
def Obligations.LicValuesBesidesTwoAreEquivalent : Prop :=
  ∀ (k : Nat) (s : State) (c : Category), s.lic ≠ .comparison → s.lic ≠ .exit →
    c ≠ .comparison → c ≠ .exit →
    runFor k { s with lic := c } =
      { runFor k s with lic := (runFor k { s with lic := c }).lic } ∧
    (runFor k { s with lic := c }).status = (runFor k s).status

/-- R14: the core never reads `EV`: what the trace held before has no effect on any number of
steps. -/
def Obligations.TraceIsNeverRead : Prop :=
  ∀ (k : Nat) (s : State) (es : List Event),
    runFor k { s with ev := es ++ s.ev } = { runFor k s with ev := es ++ (runFor k s).ev }

/-- R10: only the 1-operand jumps read `CR`: on any other slot a different flag makes no difference
but in the flag itself. -/
def Obligations.OnlyFlagJumpsReadTheFlag : Prop :=
  ∀ (i : Instr) (s : State) (c : CmpResult), isFlagJump i = false →
    ∃ t u, exec i s = .next t ∧ exec i { s with cr := c } = .next u ∧ u = { t with cr := u.cr } ∧
      (t.cr = s.cr ∧ u.cr = c ∨ t.cr = u.cr)

/-! ### Encoding -/

/-- R44 to R50: decoding the word of a well-formed instruction gives the instruction back, with
every operand at every value. -/
def Obligations.DecodeOfEncode : Prop :=
  ∀ i : Instr, i.wellFormed = true → decode (encode i) = i

/-- Every word holds a well-formed instruction: the decoder is total and leaves nothing out. -/
def Obligations.EveryWordIsAWellFormedInstruction : Prop :=
  ∀ w : InstrWord, (decode w).wellFormed = true

/-- R47: the record of the decoded instruction is what the spec's pseudocode returns. -/
def Obligations.DecoderFollowsThePseudocode : Prop :=
  ∀ w : InstrWord, (decode w).record = decodeRecord w

/-- R49 d: bits of ignored fields have no effect: any field of a NONE or reserved word but `opc`,
the tag and value of an absent operand, and all of a PFAIL word but `opc` and `v2`. -/
def Obligations.IgnoredFieldsHaveNoEffect : Prop :=
  ∀ (opc : BitVec 4) (cnt cnt' : BitVec 2) (t1 t2 t1' t2' : BitVec 1) (v1 v2 v1' v2' : Word),
    (opc ∈ [0#4, 12#4, 13#4, 14#4] →
      decode (Fields.toWord ⟨opc, cnt, t1, t2, v1, v2⟩) =
        decode (Fields.toWord ⟨opc, cnt', t1', t2', v1', v2'⟩)) ∧
    (opc = 15#4 →
      decode (Fields.toWord ⟨opc, cnt, t1, t2, v1, v2⟩) =
        decode (Fields.toWord ⟨opc, cnt', t1', t2', v1', v2⟩)) ∧
    (cnt ∈ [0#2, 3#2] → opc ≠ 15#4 →
      decode (Fields.toWord ⟨opc, cnt, t1, t2, v1, v2⟩) =
        decode (Fields.toWord ⟨opc, cnt, t1', t2', v1', v2'⟩)) ∧
    (cnt = 1#2 → opc ≠ 15#4 →
      decode (Fields.toWord ⟨opc, cnt, t1, t2, v1, v2⟩) =
        decode (Fields.toWord ⟨opc, cnt, t1, t2', v1, v2'⟩))

/-- Words of the table of R50, written out, decode to the instructions they stand for. -/
def Obligations.SampleWordsDecode : Prop :=
  decode 0x3A0000000100000005 = .mov (.ops (.two (.memoryLocation 1) (.integer 5))) ∧
  decode 0x44FFFFFFFF00000000 = .push (.ops (.one (.integer (-1)))) ∧
  decode 0x8800000001FFFFFFF6 = .jnz (.ops (.two (.integer 1) (.integer (-10)))) ∧
  decode 0xF00000000000000006 = .pfail .invalidMemoryLocation

/-! ### The assembler syntax -/

/-- R50: `decode` applied to the assembled word returns the record the parser produced. -/
def Obligations.AssembledLineDecodesToItsParse : Prop :=
  ∀ l : Line, decode (assembleLine l) = parseLine l

/-- R33: a line is a NONE slot exactly when what stands before its first `;`, or all of it, is
empty or whitespace. -/
def Obligations.BlankAndCommentLinesAreNone : Prop :=
  ∀ l : Line, parseLine l = .nop ↔
    ∃ pre post, l = pre ++ post ∧ (∀ c ∈ pre, c = ' ' ∨ c = '\t') ∧
      (post = [] ∨ post.head? = some ';')

/-- R34: everything from the first `;` to the end of the line is discarded. -/
def Obligations.CommentsAreDiscarded : Prop :=
  ∀ l r : Line, ';' ∉ l → parseLine (l ++ ';' :: r) = parseLine l

/-- R35, R40: every spelling of a table keyword that differs from it only in small letters `a` to `z`
for `A` to `Z` parses as that keyword does, and a line with any other keyword fails with
InvalidCommand whatever its arguments are. That it is these letters is the spec's general knowledge
(log entry 10, PRESUMED). -/
def Obligations.KeywordsIgnoreCaseAndComeFirst : Prop :=
  ∀ kw rest : Line, kw ≠ [] → (∀ c ∈ kw, c ≠ ' ' ∧ c ≠ '\t' ∧ c ≠ ';') →
    (rest = [] ∨ rest.head? = some ' ' ∨ rest.head? = some '\t') →
    (∀ p ∈ keywordTable, CaseVariant kw p.1 → parseLine (kw ++ rest) = parseLine (p.1 ++ rest)) ∧
    ((∀ p ∈ keywordTable, ¬ CaseVariant kw p.1) →
      parseLine (kw ++ rest) = .pfail .invalidCommand)

/-- R36, R40: a known keyword with more than two argument tokens fails with InvalidNumberOfParams,
whatever the tokens are. -/
def Obligations.ThreeTokensFail : Prop :=
  ∀ (p : Line × Opcode) (rest : Line), p ∈ keywordTable → ';' ∉ rest → 2 ≤ rest.count ',' →
    parseLine (p.1 ++ ' ' :: rest) = .pfail .invalidNumberOfParams

/-- R37: a token of length 2 that starts with `M` or `m` is a cell address, 1 to 8 exactly for the
characters `1` to `8`; with any other length it fails with InvalidMemoryLocation. -/
def Obligations.MemoryTokensClassifyByLength : Prop :=
  ∀ m : Char, m = 'M' ∨ m = 'm' →
    (∀ c : Char, c ≠ ' ' → c ≠ '\t' → ∃ n : Word,
      classify [m, c] = .ok (.memoryLocation n) ∧ n.toInt = (c.toNat : Int) - 48 ∧
      ((1 ≤ n.toInt ∧ n.toInt ≤ 8) ↔ '1' ≤ c ∧ c ≤ '8')) ∧
    (∀ t : Line, trim (m :: t) = m :: t → t.length ≠ 1 →
      classify (m :: t) = .error .invalidMemoryLocation)

/-- R38: a trimmed token that does not start with `M` or `m` is the literal `v` exactly when it is an
optional `-` and one or more decimal digits that write `v`, a value of 32 bits; every other such
token fails with BadIntegerLiteral. -/
def Obligations.LiteralsAreDecimalAndInRange : Prop :=
  ∀ t : Line, trim t = t → t.head? ≠ some 'M' → t.head? ≠ some 'm' →
    (∀ v : Word, classify t = .ok (.integer v) ↔
      ∃ ds : Line, ds ≠ [] ∧ (∀ c ∈ ds, '0' ≤ c ∧ c ≤ '9') ∧
        ((t = ds ∧
          v.toInt = ((Nat.ofDigits 10 (ds.reverse.map fun c => c.toNat - 48) : Nat) : Int)) ∨
         (t = '-' :: ds ∧
          v.toInt = -((Nat.ofDigits 10 (ds.reverse.map fun c => c.toNat - 48) : Nat) : Int)))) ∧
    ((∀ v : Word, classify t ≠ .ok (.integer v)) → classify t = .error .badIntegerLiteral)

/-- R37, R38, R40: with a known keyword, the first token from the left that does not read as an
operand gives the failure of the line, InvalidMemoryLocation or BadIntegerLiteral, whatever the
token after it is; whitespace alone after the keyword is no token (R35). -/
def Obligations.FirstBadTokenIsReported : Prop :=
  (∀ (a : Line) (k : FailureKind), classify a = .error k →
    k = .invalidMemoryLocation ∨ k = .badIntegerLiteral) ∧
  ∀ p ∈ keywordTable,
    (∀ a : Line, (∀ c ∈ a, c = ' ' ∨ c = '\t') →
      parseLine (p.1 ++ ' ' :: a) = p.2.instr (.ops .zero)) ∧
    (∀ (a : Line) (k : FailureKind), ',' ∉ a → ';' ∉ a → (∃ c ∈ a, c ≠ ' ' ∧ c ≠ '\t') →
      classify a = .error k → parseLine (p.1 ++ ' ' :: a) = .pfail k) ∧
    (∀ (a b : Line) (k : FailureKind), ',' ∉ a → ';' ∉ a → ',' ∉ b → ';' ∉ b →
      classify a = .error k → parseLine (p.1 ++ ' ' :: (a ++ ',' :: b)) = .pfail k) ∧
    (∀ (a b : Line) (o1 : Operand) (k : FailureKind), ArgToken a o1 → ',' ∉ b → ';' ∉ b →
      classify b = .error k → parseLine (p.1 ++ ' ' :: (a ++ ',' :: b)) = .pfail k)

/-- R37: "Each argument token is trimmed and classified": spaces and tabs around a token make no
difference. -/
def Obligations.WhitespaceAroundTokensIsIgnored : Prop :=
  ∀ pre t post : Line, (∀ c ∈ pre, c = ' ' ∨ c = '\t') → (∀ c ∈ post, c = ' ' ∨ c = '\t') →
    classify (pre ++ t ++ post) = classify t
end

