-- ==== Sys2Proof/Laws/Decode.lean ====
section
/-! SUPPORT. The small lemmas of the encoding: the field split undoes the concatenation (R44). -/

namespace Sys2Proof

/-- The field split of a word made of fields gives the fields back (R44). -/
theorem ofWord_toWord (f : Fields) : Fields.ofWord f.toWord = f := by
  obtain ⟨opc, cnt, t1, t2, v1, v2⟩ := f
  simp only [Fields.ofWord, Fields.toWord, Fields.mk.injEq]
  refine ⟨?_, ?_, ?_, ?_, ?_, ?_⟩ <;>
    (apply BitVec.eq_of_getLsbD_eq
     intro j hj
     rw [BitVec.getLsbD_extractLsb']
     simp only [BitVec.getLsbD_append, hj, decide_true, Bool.true_and]
     split_ifs <;> first | omega | (congr 1; omega))

theorem decodeOperand_tag_value (o : Operand) : decodeOperand o.tag o.value = o := by
  cases o <;> rfl

/-- The opcode field of an encoded operand field (R44). -/
theorem encodeArgs_opc (opc : BitVec 4) (args : OperandField) :
    (Fields.ofWord (encodeArgs opc args)).opc = opc := by
  unfold encodeArgs
  split <;> rw [ofWord_toWord]

/-- The operand field of a word is the one it was made from (R46, R47). -/
theorem encodeArgs_operandField (opc : BitVec 4) (args : OperandField) :
    (Fields.ofWord (encodeArgs opc args)).operandField = args := by
  unfold encodeArgs
  split <;> rw [ofWord_toWord] <;> simp [Fields.operandField, decodeOperand_tag_value]

/-- The parse-stage kinds survive the PFAIL word (R48, R81). -/
theorem decodePFAIL_code {k : FailureKind} (h : k.isParseStage = true) :
    decodePFAIL (BitVec.ofNat 32 k.code) = k := by
  cases k <;> first | rfl | simp [FailureKind.isParseStage] at h

end Sys2Proof
end

