-- ==== Sys2Proof/Laws/State.lean ====
section
/-! SUPPORT. One lemma per field of the state and per update: what each update leaves in each
field. Later proofs cite these and unfold no record update. -/

namespace Sys2Proof.Machine

@[simp] theorem State.setCell_params (s : State) (i : Fin Config.numCells) (v : Word) :
    (s.setCell i v).params = s.params := rfl
@[simp] theorem State.setCell_im (s : State) (i : Fin Config.numCells) (v : Word) :
    (s.setCell i v).im = s.im := rfl
@[simp] theorem State.setCell_cells (s : State) (i : Fin Config.numCells) (v : Word) :
    (s.setCell i v).cells = s.cells.set i.val v := rfl
@[simp] theorem State.setCell_stack (s : State) (i : Fin Config.numCells) (v : Word) :
    (s.setCell i v).stack = s.stack := rfl
@[simp] theorem State.setCell_lic (s : State) (i : Fin Config.numCells) (v : Word) :
    (s.setCell i v).lic = s.lic := rfl
@[simp] theorem State.setCell_cr (s : State) (i : Fin Config.numCells) (v : Word) :
    (s.setCell i v).cr = s.cr := rfl
@[simp] theorem State.setCell_ip (s : State) (i : Fin Config.numCells) (v : Word) :
    (s.setCell i v).ip = s.ip := rfl
@[simp] theorem State.setCell_ev (s : State) (i : Fin Config.numCells) (v : Word) :
    (s.setCell i v).ev = s.ev := rfl
@[simp] theorem State.setCell_fs (s : State) (i : Fin Config.numCells) (v : Word) :
    (s.setCell i v).fs = s.fs := rfl

@[simp] theorem State.setStack_params (s : State) (st : List Word) :
    (s.setStack st).params = s.params := rfl
@[simp] theorem State.setStack_im (s : State) (st : List Word) : (s.setStack st).im = s.im := rfl
@[simp] theorem State.setStack_cells (s : State) (st : List Word) :
    (s.setStack st).cells = s.cells := rfl
@[simp] theorem State.setStack_stack (s : State) (st : List Word) :
    (s.setStack st).stack = st := rfl
@[simp] theorem State.setStack_lic (s : State) (st : List Word) : (s.setStack st).lic = s.lic := rfl
@[simp] theorem State.setStack_cr (s : State) (st : List Word) : (s.setStack st).cr = s.cr := rfl
@[simp] theorem State.setStack_ip (s : State) (st : List Word) : (s.setStack st).ip = s.ip := rfl
@[simp] theorem State.setStack_ev (s : State) (st : List Word) : (s.setStack st).ev = s.ev := rfl
@[simp] theorem State.setStack_fs (s : State) (st : List Word) : (s.setStack st).fs = s.fs := rfl

@[simp] theorem State.setLic_params (s : State) (c : Category) :
    (s.setLic c).params = s.params := rfl
@[simp] theorem State.setLic_im (s : State) (c : Category) : (s.setLic c).im = s.im := rfl
@[simp] theorem State.setLic_cells (s : State) (c : Category) : (s.setLic c).cells = s.cells := rfl
@[simp] theorem State.setLic_stack (s : State) (c : Category) : (s.setLic c).stack = s.stack := rfl
@[simp] theorem State.setLic_lic (s : State) (c : Category) : (s.setLic c).lic = c := rfl
@[simp] theorem State.setLic_cr (s : State) (c : Category) : (s.setLic c).cr = s.cr := rfl
@[simp] theorem State.setLic_ip (s : State) (c : Category) : (s.setLic c).ip = s.ip := rfl
@[simp] theorem State.setLic_ev (s : State) (c : Category) : (s.setLic c).ev = s.ev := rfl
@[simp] theorem State.setLic_fs (s : State) (c : Category) : (s.setLic c).fs = s.fs := rfl

@[simp] theorem State.setCr_params (s : State) (r : CmpResult) :
    (s.setCr r).params = s.params := rfl
@[simp] theorem State.setCr_im (s : State) (r : CmpResult) : (s.setCr r).im = s.im := rfl
@[simp] theorem State.setCr_cells (s : State) (r : CmpResult) : (s.setCr r).cells = s.cells := rfl
@[simp] theorem State.setCr_stack (s : State) (r : CmpResult) : (s.setCr r).stack = s.stack := rfl
@[simp] theorem State.setCr_lic (s : State) (r : CmpResult) : (s.setCr r).lic = s.lic := rfl
@[simp] theorem State.setCr_cr (s : State) (r : CmpResult) : (s.setCr r).cr = r := rfl
@[simp] theorem State.setCr_ip (s : State) (r : CmpResult) : (s.setCr r).ip = s.ip := rfl
@[simp] theorem State.setCr_ev (s : State) (r : CmpResult) : (s.setCr r).ev = s.ev := rfl
@[simp] theorem State.setCr_fs (s : State) (r : CmpResult) : (s.setCr r).fs = s.fs := rfl

@[simp] theorem State.emit_params (s : State) (e : Event) : (s.emit e).params = s.params := rfl
@[simp] theorem State.emit_im (s : State) (e : Event) : (s.emit e).im = s.im := rfl
@[simp] theorem State.emit_cells (s : State) (e : Event) : (s.emit e).cells = s.cells := rfl
@[simp] theorem State.emit_stack (s : State) (e : Event) : (s.emit e).stack = s.stack := rfl
@[simp] theorem State.emit_lic (s : State) (e : Event) : (s.emit e).lic = s.lic := rfl
@[simp] theorem State.emit_cr (s : State) (e : Event) : (s.emit e).cr = s.cr := rfl
@[simp] theorem State.emit_ip (s : State) (e : Event) : (s.emit e).ip = s.ip := rfl
@[simp] theorem State.emit_ev (s : State) (e : Event) : (s.emit e).ev = s.ev ++ [e] := rfl
@[simp] theorem State.emit_fs (s : State) (e : Event) : (s.emit e).fs = s.fs := rfl

@[simp] theorem State.machineFault_params (s : State) (f : FaultStatus) :
    (s.machineFault f).params = s.params := rfl
@[simp] theorem State.machineFault_im (s : State) (f : FaultStatus) :
    (s.machineFault f).im = s.im := rfl
@[simp] theorem State.machineFault_cells (s : State) (f : FaultStatus) :
    (s.machineFault f).cells = s.cells := rfl
@[simp] theorem State.machineFault_stack (s : State) (f : FaultStatus) :
    (s.machineFault f).stack = s.stack := rfl
@[simp] theorem State.machineFault_lic (s : State) (f : FaultStatus) :
    (s.machineFault f).lic = s.lic := rfl
@[simp] theorem State.machineFault_cr (s : State) (f : FaultStatus) :
    (s.machineFault f).cr = s.cr := rfl
@[simp] theorem State.machineFault_ip (s : State) (f : FaultStatus) :
    (s.machineFault f).ip = s.ip := rfl
@[simp] theorem State.machineFault_ev (s : State) (f : FaultStatus) :
    (s.machineFault f).ev = s.ev := rfl
@[simp] theorem State.machineFault_fs (s : State) (f : FaultStatus) :
    (s.machineFault f).fs = f := rfl

@[simp] theorem State.setIp_params (s : State) (t : Int) : (s.setIp t).params = s.params := rfl
@[simp] theorem State.setIp_im (s : State) (t : Int) : (s.setIp t).im = s.im := rfl
@[simp] theorem State.setIp_cells (s : State) (t : Int) : (s.setIp t).cells = s.cells := rfl
@[simp] theorem State.setIp_stack (s : State) (t : Int) : (s.setIp t).stack = s.stack := rfl
@[simp] theorem State.setIp_lic (s : State) (t : Int) : (s.setIp t).lic = s.lic := rfl
@[simp] theorem State.setIp_cr (s : State) (t : Int) : (s.setIp t).cr = s.cr := rfl
@[simp] theorem State.setIp_ip (s : State) (t : Int) : (s.setIp t).ip = t := rfl
@[simp] theorem State.setIp_ev (s : State) (t : Int) : (s.setIp t).ev = s.ev := rfl
@[simp] theorem State.setIp_fs (s : State) (t : Int) :
    (s.setIp t).fs = if t < 0 then .fetchOutOfRange else s.fs := rfl

@[simp] theorem State.pushRaw_params (s : State) (v : Word) : (s.pushRaw v).params = s.params := rfl
@[simp] theorem State.pushRaw_im (s : State) (v : Word) : (s.pushRaw v).im = s.im := rfl
@[simp] theorem State.pushRaw_cells (s : State) (v : Word) : (s.pushRaw v).cells = s.cells := rfl
@[simp] theorem State.pushRaw_stack (s : State) (v : Word) :
    (s.pushRaw v).stack = v :: s.stack := rfl
@[simp] theorem State.pushRaw_lic (s : State) (v : Word) : (s.pushRaw v).lic = s.lic := rfl
@[simp] theorem State.pushRaw_cr (s : State) (v : Word) : (s.pushRaw v).cr = s.cr := rfl
@[simp] theorem State.pushRaw_ip (s : State) (v : Word) : (s.pushRaw v).ip = s.ip := rfl
@[simp] theorem State.pushRaw_ev (s : State) (v : Word) : (s.pushRaw v).ev = s.ev := rfl
@[simp] theorem State.pushRaw_fs (s : State) (v : Word) : (s.pushRaw v).fs = s.fs := rfl

@[simp] theorem State.advance_params (s : State) : (s.advance).params = s.params := rfl
@[simp] theorem State.advance_im (s : State) : (s.advance).im = s.im := rfl
@[simp] theorem State.advance_cells (s : State) : (s.advance).cells = s.cells := rfl
@[simp] theorem State.advance_stack (s : State) : (s.advance).stack = s.stack := rfl
@[simp] theorem State.advance_lic (s : State) : (s.advance).lic = s.lic := rfl
@[simp] theorem State.advance_cr (s : State) : (s.advance).cr = s.cr := rfl
@[simp] theorem State.advance_ip (s : State) : (s.advance).ip = s.ip + 1 := rfl
@[simp] theorem State.advance_ev (s : State) : (s.advance).ev = s.ev := rfl
@[simp] theorem State.advance_fs (s : State) :
    (s.advance).fs = if s.ip + 1 < 0 then .fetchOutOfRange else s.fs := rfl

@[simp] theorem State.takeFailure_params (s : State) (k : FailureKind) :
    (s.takeFailure k).params = s.params := rfl
@[simp] theorem State.takeFailure_im (s : State) (k : FailureKind) :
    (s.takeFailure k).im = s.im := rfl
@[simp] theorem State.takeFailure_cells (s : State) (k : FailureKind) :
    (s.takeFailure k).cells = s.cells := rfl
@[simp] theorem State.takeFailure_stack (s : State) (k : FailureKind) :
    (s.takeFailure k).stack = s.stack := rfl
@[simp] theorem State.takeFailure_lic (s : State) (k : FailureKind) :
    (s.takeFailure k).lic = s.lic := rfl
@[simp] theorem State.takeFailure_cr (s : State) (k : FailureKind) :
    (s.takeFailure k).cr = s.cr := rfl
@[simp] theorem State.takeFailure_ip (s : State) (k : FailureKind) :
    (s.takeFailure k).ip = s.ip + 1 := rfl
@[simp] theorem State.takeFailure_ev (s : State) (k : FailureKind) :
    (s.takeFailure k).ev = s.ev ++ [.failure s.ip k] := rfl
@[simp] theorem State.takeFailure_fs (s : State) (k : FailureKind) :
    (s.takeFailure k).fs = if s.ip + 1 < 0 then .fetchOutOfRange else s.fs := rfl

@[simp] theorem State.setStack_cell (s : State) (st : List Word) (i : Fin Config.numCells) :
    (s.setStack st).cell i = s.cell i := rfl
@[simp] theorem State.setLic_cell (s : State) (c : Category) (i : Fin Config.numCells) :
    (s.setLic c).cell i = s.cell i := rfl
@[simp] theorem State.setCr_cell (s : State) (r : CmpResult) (i : Fin Config.numCells) :
    (s.setCr r).cell i = s.cell i := rfl
@[simp] theorem State.emit_cell (s : State) (e : Event) (i : Fin Config.numCells) :
    (s.emit e).cell i = s.cell i := rfl
@[simp] theorem State.machineFault_cell (s : State) (f : FaultStatus) (i : Fin Config.numCells) :
    (s.machineFault f).cell i = s.cell i := rfl
@[simp] theorem State.setIp_cell (s : State) (t : Int) (i : Fin Config.numCells) :
    (s.setIp t).cell i = s.cell i := rfl
@[simp] theorem State.pushRaw_cell (s : State) (v : Word) (i : Fin Config.numCells) :
    (s.pushRaw v).cell i = s.cell i := rfl
@[simp] theorem State.advance_cell (s : State) (i : Fin Config.numCells) :
    (s.advance).cell i = s.cell i := rfl
@[simp] theorem State.takeFailure_cell (s : State) (k : FailureKind) (i : Fin Config.numCells) :
    (s.takeFailure k).cell i = s.cell i := rfl

@[simp] theorem State.setCell_cell_same (s : State) (i : Fin Config.numCells) (v : Word) :
    (s.setCell i v).cell i = v := by simp [State.cell]

theorem State.setCell_cell_ne (s : State) (i j : Fin Config.numCells) (v : Word) (h : i ≠ j) :
    (s.setCell i v).cell j = s.cell j := by
  have hne : i.val ≠ j.val := fun e => h (Fin.ext e)
  simp [State.cell, hne]

/-! ### The state after reset (R17) -/

@[simp] theorem State.resetWith_params (p : Params) (im : List InstrWord) :
    (State.resetWith p im).params = p := rfl
@[simp] theorem State.resetWith_im (p : Params) (im : List InstrWord) :
    (State.resetWith p im).im = im := rfl
@[simp] theorem State.resetWith_stack (p : Params) (im : List InstrWord) :
    (State.resetWith p im).stack = [] := rfl
@[simp] theorem State.resetWith_lic (p : Params) (im : List InstrWord) :
    (State.resetWith p im).lic = .none := rfl
@[simp] theorem State.resetWith_cr (p : Params) (im : List InstrWord) :
    (State.resetWith p im).cr = p.crReset := rfl
@[simp] theorem State.resetWith_ip (p : Params) (im : List InstrWord) :
    (State.resetWith p im).ip = 0 := rfl
@[simp] theorem State.resetWith_ev (p : Params) (im : List InstrWord) :
    (State.resetWith p im).ev = [] := rfl
@[simp] theorem State.resetWith_fs (p : Params) (im : List InstrWord) :
    (State.resetWith p im).fs = .noFault := rfl

@[simp] theorem State.resetWith_cell (p : Params) (im : List InstrWord)
    (i : Fin Config.numCells) : (State.resetWith p im).cell i = 0 := by
  simp [State.cell, State.resetWith]

end Sys2Proof.Machine
end

