-- ==== Sys2Proof/Laws/Ops.lean ====
section
/-! SUPPORT. For each shared operation one lemma that says once what it can do. -/

namespace Sys2Proof.Machine

/-! ### Addresses and cells (R20 to R22) -/

theorem cellIndex_eq_some {a : Word} {i : Fin Config.numCells} :
    cellIndex a = some i ↔ a.toInt = i.val + 1 := by
  have hi : i.val < 8 := i.isLt
  unfold cellIndex Config.cellLo Config.cellHi
  split
  · rw [Option.some_inj, Fin.ext_iff]; simp only []; omega
  · simp; omega

theorem cellIndex_eq_none {a : Word} : cellIndex a = none ↔ a.toInt < 1 ∨ 8 < a.toInt := by
  unfold cellIndex Config.cellLo Config.cellHi
  split <;> simp <;> omega

theorem cellIndex_inj {a b : Word} {i : Fin Config.numCells} (ha : cellIndex a = some i)
    (hb : cellIndex b = some i) : a = b := by
  rw [cellIndex_eq_some] at ha hb
  exact BitVec.eq_of_toInt_eq (ha.trans hb.symm)

theorem validAddress_iff {a : Word} : validAddress a = true ↔ 1 ≤ a.toInt ∧ a.toInt ≤ 8 := by
  unfold validAddress
  cases h : cellIndex a with
  | none => rw [cellIndex_eq_none] at h; simp; omega
  | some i => rw [cellIndex_eq_some] at h; have : i.val < 8 := i.isLt; simp; omega

theorem memRead_cases (s : State) (a : Word) :
    (∃ i, cellIndex a = some i ∧ s.memRead a = .ok (s.cell i)) ∨
      (cellIndex a = none ∧ s.memRead a = .error .invalidMemoryLocation) := by
  unfold State.memRead
  cases cellIndex a with
  | none => exact .inr ⟨rfl, rfl⟩
  | some i => exact .inl ⟨i, rfl, rfl⟩

theorem memWrite_cases (s : State) (a v : Word) :
    (∃ i, cellIndex a = some i ∧ s.memWrite a v = .ok (s.setCell i v)) ∨
      (cellIndex a = none ∧ s.memWrite a v = .error .invalidMemoryLocation) := by
  unfold State.memWrite
  cases cellIndex a with
  | none => exact .inr ⟨rfl, rfl⟩
  | some i => exact .inl ⟨i, rfl, rfl⟩

/-! ### Operands (R60) -/

theorem resolve_of_resolves {s : State} {o : Operand} {v : Word} (h : Resolves s o v) :
    s.resolve o = .ok v := by
  cases o with
  | integer u => simp only [Resolves] at h; simp [State.resolve, h]
  | memoryLocation a =>
    obtain ⟨i, hi, rfl⟩ := h
    have hc : cellIndex a = some i := cellIndex_eq_some.2 hi
    simp [State.resolve, State.memRead, hc]

theorem resolve_of_badAddress {s : State} {o : Operand} (h : BadAddress o) :
    s.resolve o = .error .invalidMemoryLocation := by
  cases o with
  | integer u => exact h.elim
  | memoryLocation a =>
    have hc : cellIndex a = none := cellIndex_eq_none.2 h
    simp [State.resolve, State.memRead, hc]

theorem resolves_or_badAddress (s : State) (o : Operand) :
    (∃ v, Resolves s o v ∧ s.resolve o = .ok v) ∨
      (BadAddress o ∧ s.resolve o = .error .invalidMemoryLocation) := by
  cases o with
  | integer u => exact .inl ⟨u, rfl, rfl⟩
  | memoryLocation a =>
    rcases hc : cellIndex a with _ | i
    · exact .inr ⟨cellIndex_eq_none.1 hc, by simp [State.resolve, State.memRead, hc]⟩
    · exact .inl ⟨s.cell i, ⟨i, cellIndex_eq_some.1 hc, rfl⟩,
        by simp [State.resolve, State.memRead, hc]⟩

/-! ### Stack (R23 to R25) -/

theorem pop_cases (s : State) :
    (∃ v rest, s.stack = v :: rest ∧ s.pop = .ok (v, s.setStack rest)) ∨
      (s.stack = [] ∧ s.pop = .error .stackNotReady) := by
  unfold State.pop
  cases s.stack with
  | nil => exact .inr ⟨rfl, rfl⟩
  | cons v rest => exact .inl ⟨v, rest, rfl, rfl⟩

theorem stackFull_iff {s : State} : s.stackFull = true ↔ s.params.stackDepth = some s.depth := by
  simp [State.stackFull]

theorem push_cases (s : State) (v : Word) :
    (s.params.stackDepth = some s.depth ∧ s.push v = .machineFault .stackOverflow) ∨
      (s.params.stackDepth ≠ some s.depth ∧ s.push v = .ok (s.pushRaw v) 0) := by
  unfold State.push
  by_cases h : s.params.stackDepth = some s.depth
  · exact .inl ⟨h, by simp [stackFull_iff, h]⟩
  · exact .inr ⟨h, by simp [stackFull_iff, h]⟩

/-! ### The end of a step (R52, R57 to R59, R84) -/

theorem word_toInt_eq_zero {d : Word} : d.toInt = 0 ↔ d = 0 := by
  constructor
  · intro h; exact BitVec.eq_of_toInt_eq (by simpa using h)
  · rintro rfl; rfl

theorem setIp_of_nonneg {s : State} {t : Int} (h : 0 ≤ t) : s.setIp t = { s with ip := t } := by
  unfold State.setIp; rw [if_neg (by omega)]

theorem setIp_of_neg {s : State} {t : Int} (h : t < 0) :
    s.setIp t = { s with ip := t, fs := .fetchOutOfRange } := by
  unfold State.setIp; rw [if_pos h]

theorem advance_of_nonneg {s : State} (h : 0 ≤ s.ip) : s.advance = { s with ip := s.ip + 1 } :=
  setIp_of_nonneg (by omega)

theorem applyDistance_eq (s : State) (d : Word) : s.applyDistance d = s.setIp (jumpTarget s.ip d) := by
  unfold State.applyDistance jumpTarget State.advance
  by_cases h : d = 0
  · simp [h]
  · have : d.toInt ≠ 0 := fun e => h (word_toInt_eq_zero.1 e)
    rw [if_pos this, if_neg h]

@[simp] theorem jumpTarget_zero (ip : Int) : jumpTarget ip 0 = ip + 1 := rfl

theorem jumpTarget_of_ne {ip : Int} {d : Word} (h : d ≠ 0) : jumpTarget ip d = ip + d.toInt :=
  if_neg h

@[simp] theorem applyDistance_zero (s : State) : s.applyDistance 0 = s.advance := by
  simp [State.applyDistance]

theorem takeFailure_of_nonneg {s : State} {k : FailureKind} (h : 0 ≤ s.ip) :
    s.takeFailure k = s.afterParseFailure k := by
  unfold State.takeFailure
  rw [advance_of_nonneg (s := s.emit (.failure s.ip k)) h]; rfl

theorem finish_fail_of_nonneg {s : State} {c : Category} {k : FailureKind} (h : 0 ≤ s.ip) :
    s.finish c (.fail k) = s.afterFailure c k := by
  simp only [State.finish]
  rw [takeFailure_of_nonneg (s := s.setLic c) h]; rfl

/-- The end of a step of a success without a jump (R57). -/
theorem finish_ok_of_nonneg {s t : State} {c : Category} (h : 0 ≤ s.ip) (ht : t.ip = s.ip) :
    s.finish c (.ok t 0) = { t with lic := c, ip := s.ip + 1 } := by
  simp only [State.finish, applyDistance_zero]
  rw [advance_of_nonneg (by simpa [ht] using h)]
  simp [State.setLic, ht]

theorem finish_jump (s : State) (d : Word) : s.finish .jump (.ok s d) = s.afterJump d := by
  simp only [State.finish]
  rw [applyDistance_eq]; rfl

/-- What a dispatched slot can do (R52). -/
theorem dispatch_cases (op : Opcode) (f : Operands → State → Result) (args : OperandField)
    (s : State) :
    (∃ o, args = .ops o ∧ dispatch op f args s = .next (s.finish (category op) (f o s))) ∨
      (args = .count3 ∧ dispatch op f args s = .next (s.takeFailure .invalidNumberOfParams)) := by
  cases args with
  | ops o => exact .inl ⟨o, rfl, rfl⟩
  | count3 => exact .inr ⟨rfl, rfl⟩

/-! ### The shared instruction bodies -/

/-- What ADD and MUL can do (R66, R67). -/
theorem binaryOnStack_cases (f : Word → Word → Word) (o : Operands) (s : State) :
    (o ≠ .zero ∧ binaryOnStack f o s = .fail .invalidNumberOfParams) ∨
      (o = .zero ∧ s.stack.length < 2 ∧ binaryOnStack f o s = .fail .stackNotReady) ∨
      ∃ b a rest, o = .zero ∧ s.stack = b :: a :: rest ∧
        binaryOnStack f o s = .ok (s.setStack (f a b :: rest)) 0 := by
  cases o with
  | one _ => exact .inl ⟨by simp, rfl⟩
  | two _ _ => exact .inl ⟨by simp, rfl⟩
  | zero =>
    refine .inr ?_
    unfold binaryOnStack
    match h : s.stack with
    | [] => exact .inl ⟨rfl, by simp, rfl⟩
    | [_] => exact .inl ⟨rfl, by simp, rfl⟩
    | b :: a :: rest => exact .inr ⟨b, a, rest, rfl, rfl, rfl⟩

/-- What a jump can do (R70): it fails, or it answers a distance and changes nothing. -/
theorem executeJump_cases (condCR : CmpResult → Bool) (condV : Word → Bool) (o : Operands)
    (s : State) :
    (o = .zero ∧ executeJump condCR condV o s = .fail .invalidNumberOfParams) ∨
    (∃ o1, o = .one o1 ∧ s.lic ≠ .comparison ∧
      executeJump condCR condV o s = .fail .illegalJumpInstruction) ∨
    (∃ a, o = .one (.memoryLocation a) ∧ s.lic = .comparison ∧
      executeJump condCR condV o s = .fail .invalidOperand) ∨
    (∃ d, o = .one (.integer d) ∧ s.lic = .comparison ∧
      executeJump condCR condV o s = .ok s (if condCR s.cr then d else 0)) ∨
    (∃ o1 a, o = .two o1 (.memoryLocation a) ∧
      executeJump condCR condV o s = .fail .invalidOperand) ∨
    (∃ o1 d, o = .two o1 (.integer d) ∧ BadAddress o1 ∧
      executeJump condCR condV o s = .fail .invalidMemoryLocation) ∨
    (∃ o1 d x, o = .two o1 (.integer d) ∧ Resolves s o1 x ∧
      executeJump condCR condV o s = .ok s (if condV x then d else 0)) := by
  match o with
  | .zero => exact .inl ⟨rfl, rfl⟩
  | .one o1 =>
    by_cases h : s.lic = .comparison
    · cases o1 with
      | memoryLocation a => exact .inr (.inr (.inl ⟨a, rfl, h, by simp [executeJump, h]⟩))
      | integer d => exact .inr (.inr (.inr (.inl ⟨d, rfl, h, by simp [executeJump, h]⟩)))
    · exact .inr (.inl ⟨o1, rfl, h, by simp [executeJump, h]⟩)
  | .two o1 (.memoryLocation a) =>
    exact .inr (.inr (.inr (.inr (.inl ⟨o1, a, rfl, rfl⟩))))
  | .two o1 (.integer d) =>
    refine .inr (.inr (.inr (.inr (.inr ?_))))
    rcases resolves_or_badAddress s o1 with ⟨x, hx, hr⟩ | ⟨hb, hr⟩
    · exact .inr ⟨o1, d, x, rfl, hx, by simp [executeJump, hr]⟩
    · exact .inl ⟨o1, d, rfl, hb, by simp [executeJump, hr]⟩

/-! ### The run loop (R51, R52) -/

theorem runCondition_iff {s : State} : s.runCondition = true ↔
    (s.fs = .noFault ∧ 0 ≤ s.ip ∧ s.ip < s.im.length ∧ s.lic ≠ .exit) := by
  unfold State.runCondition State.progLen
  exact decide_eq_true_iff

/-- What the fetch can answer: a word exactly under the run condition, a stop otherwise. -/
theorem fetch_cases (s : State) :
    (s.runCondition = true ∧ ∃ w, s.im[s.ip.toNat]? = some w ∧ s.fetch = .ok w) ∨
      (s.runCondition = false ∧ ∃ f, s.fetch = .error f) := by
  unfold State.runCondition State.fetch State.progLen
  cases hf : s.fs with
  | fetchOutOfRange => exact .inr ⟨by simp, _, rfl⟩
  | stackOverflow => exact .inr ⟨by simp, _, rfl⟩
  | noFault =>
    by_cases hl : s.lic = .exit
    · exact .inr ⟨by simp [hl], _, by simp only [hl, if_true]; rfl⟩
    · by_cases hi : s.ip < 0
      · exact .inr ⟨by simp; omega, _, by simp only [hl, hi, if_true, if_false]; rfl⟩
      · simp only [hl, hi, if_false]
        rcases hw : s.im[s.ip.toNat]? with _ | w
        · have : s.im.length ≤ s.ip.toNat := List.getElem?_eq_none_iff.1 hw
          exact .inr ⟨by simp; omega, _, rfl⟩
        · obtain ⟨hlt, -⟩ := List.getElem?_eq_some_iff.1 hw
          exact .inl ⟨by simp [hl]; omega, w, rfl, rfl⟩

theorem step_of_fetch {s : State} {w : InstrWord} (h : s.fetch = .ok w) :
    step s = exec (decode w) s := by
  unfold step; rw [h]

theorem step_of_stop {s : State} {f : Fault} (h : s.fetch = .error f) : step s = .fault f := by
  unfold step; rw [h]

/-- A step that answers a next state ran, under the run condition, the slot at `ip`. -/
theorem step_next {s t : State} (h : step s = .next t) :
    s.runCondition = true ∧ ∃ w, s.im[s.ip.toNat]? = some w ∧ exec (decode w) s = .next t := by
  rcases fetch_cases s with ⟨hr, w, hw, hf⟩ | ⟨_, f, hf⟩
  · rw [step_of_fetch hf] at h; exact ⟨hr, w, hw, h⟩
  · rw [step_of_stop hf] at h; cases h

/-- No opcode has the category None (R56). -/
theorem category_ne_none (op : Opcode) : category op ≠ .none := by cases op <;> decide

/-- Every slot of the program can be run in every state: `exec` never stops. -/
theorem exec_answers_next (i : Instr) (s : State) : ∃ t, exec i s = .next t := by
  have hd : ∀ op f args, ∃ t, dispatch op f args s = .next t := fun op f args => by
    rcases dispatch_cases op f args s with ⟨_, _, h⟩ | ⟨_, h⟩ <;> exact ⟨_, h⟩
  cases i <;> first | exact hd _ _ _ | exact ⟨_, rfl⟩

end Sys2Proof.Machine
end

