-- ==== Sys2Proof/Laws/Exec.lean ====
section
/-! SUPPORT. What one slot can do, said once: the success, failure and overflow cases of
`execute` per opcode, and from them the cases of `exec`. Statements about all instructions are
derived from `exec_cases` without unfolding a meaning. -/

namespace Sys2Proof.Machine

/-- The successes of `execute`: the state it leaves and the distance it answers. -/
inductive Effect (s : State) : Opcode → Operands → State → Word → Prop where
  | add {b a : Word} {rest : List Word} : s.stack = b :: a :: rest →
      Effect s .add .zero (s.setStack (addW a b :: rest)) 0
  | mul {b a : Word} {rest : List Word} : s.stack = b :: a :: rest →
      Effect s .mul .zero (s.setStack (mulW a b :: rest)) 0
  | mov {n v : Word} {i : Fin Config.numCells} {src : Operand} : cellIndex n = some i →
      Resolves s src v → Effect s .mov (.two (.memoryLocation n) src) (s.setCell i v) 0
  | push {o1 : Operand} {v : Word} : Resolves s o1 v → s.params.stackDepth ≠ some s.depth →
      Effect s .push (.one o1) (s.pushRaw v) 0
  | pop {n v : Word} {i : Fin Config.numCells} {rest : List Word} : cellIndex n = some i →
      s.stack = v :: rest →
      Effect s .pop (.one (.memoryLocation n)) ((s.setStack rest).setCell i v) 0
  | cmp {o1 o2 : Operand} {x y : Word} : Resolves s o1 x → Resolves s o2 y →
      Effect s .cmp (.two o1 o2) (s.setCr (compareW x y)) 0
  | flagJump {op : Opcode} {d e : Word} : op = .jz ∨ op = .jnz ∨ op = .jpos →
      s.lic = .comparison → (e = d ∨ e = 0) → Effect s op (.one (.integer d)) s e
  | valueJump {op : Opcode} {o1 : Operand} {x d e : Word} : op = .jz ∨ op = .jnz ∨ op = .jpos →
      Resolves s o1 x → (e = d ∨ e = 0) → Effect s op (.two o1 (.integer d)) s e
  | output {o1 : Operand} {v : Word} : Resolves s o1 v →
      Effect s .output (.one o1) (s.emit (.output v)) 0
  | exit {o : Operands} : Effect s .exit o s 0

/-- What `execute` can answer for one opcode. -/
inductive ExecuteCase (s : State) (op : Opcode) (o : Operands) : Result → Prop where
  | ok {t : State} {d : Word} : Effect s op o t d → ExecuteCase s op o (.ok t d)
  | fail {k : FailureKind} : canRaise (op.instr (.ops o)) k = true → ExecuteCase s op o (.fail k)
  | overflow {o1 : Operand} {v : Word} : op = .push → o = .one o1 → Resolves s o1 v →
      s.params.stackDepth = some s.depth → ExecuteCase s op o (.machineFault .stackOverflow)

theorem executeJump_case {op : Opcode} (hop : op = .jz ∨ op = .jnz ∨ op = .jpos)
    (condCR : CmpResult → Bool) (condV : Word → Bool) (o : Operands) (s : State) :
    ExecuteCase s op o (executeJump condCR condV o s) := by
  have raise : ∀ k, k = .invalidNumberOfParams ∨ k = .invalidOperand ∨ k = .illegalJumpInstruction ∨
      k = .invalidMemoryLocation → ExecuteCase s op o (.fail k) := fun k hk => by
    refine .fail ?_
    rcases hop with rfl | rfl | rfl <;> simp [Opcode.instr, canRaise, hk]
  have dist : ∀ (c : Bool) (d : Word), (if c then d else 0) = d ∨ (if c then d else 0) = 0 :=
    fun c d => by cases c <;> simp
  rcases executeJump_cases condCR condV o s with
    ⟨_, h⟩ | ⟨_, _, _, h⟩ | ⟨_, _, _, h⟩ | ⟨d, rfl, hl, h⟩ | ⟨_, _, _, h⟩ | ⟨_, _, _, _, h⟩ |
    ⟨o1, d, x, rfl, hx, h⟩ <;> rw [h]
  · exact raise _ (by simp)
  · exact raise _ (by simp)
  · exact raise _ (by simp)
  · exact .ok (.flagJump hop hl (dist _ _))
  · exact raise _ (by simp)
  · exact raise _ (by simp)
  · exact .ok (.valueJump hop hx (dist _ _))

theorem binaryOnStack_case {op : Opcode} {f : Word → Word → Word} (o : Operands) (s : State)
    (hop : op = .add ∧ f = addW ∨ op = .mul ∧ f = mulW) :
    ExecuteCase s op o (binaryOnStack f o s) := by
  rcases binaryOnStack_cases f o s with ⟨_, h⟩ | ⟨_, _, h⟩ | ⟨b, a, rest, rfl, hs, h⟩ <;> rw [h]
  · rcases hop with ⟨rfl, rfl⟩ | ⟨rfl, rfl⟩ <;> exact .fail (by simp [Opcode.instr, canRaise])
  · rcases hop with ⟨rfl, rfl⟩ | ⟨rfl, rfl⟩ <;> exact .fail (by simp [Opcode.instr, canRaise])
  · rcases hop with ⟨rfl, rfl⟩ | ⟨rfl, rfl⟩
    · exact .ok (.add hs)
    · exact .ok (.mul hs)

theorem executeMov_case (o : Operands) (s : State) : ExecuteCase s .mov o (executeMov o s) := by
  match o with
  | .zero | .one _ | .two (.integer _) _ => exact .fail (by simp [Opcode.instr, canRaise])
  | .two (.memoryLocation n) src =>
    rcases hc : cellIndex n with _ | i
    · have : executeMov (.two (.memoryLocation n) src) s = .fail .invalidMemoryLocation := by
        simp [executeMov, validAddress, hc]
      rw [this]; exact .fail (by simp [Opcode.instr, canRaise])
    · rcases resolves_or_badAddress s src with ⟨v, hv, hr⟩ | ⟨_, hr⟩
      · have : executeMov (.two (.memoryLocation n) src) s = .ok (s.setCell i v) 0 := by
          simp [executeMov, validAddress, hc, hr, State.memWrite, Result.ofExcept]
        rw [this]; exact .ok (.mov hc hv)
      · have : executeMov (.two (.memoryLocation n) src) s = .fail .invalidMemoryLocation := by
          simp [executeMov, validAddress, hc, hr]
        rw [this]; exact .fail (by simp [Opcode.instr, canRaise])

theorem executePush_case (o : Operands) (s : State) : ExecuteCase s .push o (executePush o s) := by
  match o with
  | .zero | .two _ _ => exact .fail (by simp [Opcode.instr, canRaise])
  | .one o1 =>
    rcases resolves_or_badAddress s o1 with ⟨v, hv, hr⟩ | ⟨_, hr⟩
    · rcases push_cases s v with ⟨hfull, hp⟩ | ⟨hroom, hp⟩
      · have : executePush (.one o1) s = .machineFault .stackOverflow := by
          simp [executePush, hr, hp]
        rw [this]; exact .overflow rfl rfl hv hfull
      · have : executePush (.one o1) s = .ok (s.pushRaw v) 0 := by simp [executePush, hr, hp]
        rw [this]; exact .ok (.push hv hroom)
    · have : executePush (.one o1) s = .fail .invalidMemoryLocation := by simp [executePush, hr]
      rw [this]; exact .fail (by simp [Opcode.instr, canRaise])

theorem executePop_case (o : Operands) (s : State) : ExecuteCase s .pop o (executePop o s) := by
  match o with
  | .zero | .two _ _ | .one (.integer _) => exact .fail (by simp [Opcode.instr, canRaise])
  | .one (.memoryLocation n) =>
    rcases pop_cases s with ⟨v, rest, hs, hp⟩ | ⟨_, hp⟩
    · rcases hc : cellIndex n with _ | i
      · have : executePop (.one (.memoryLocation n)) s = .fail .invalidMemoryLocation := by
          simp [executePop, hp, validAddress, hc]
        rw [this]; exact .fail (by simp [Opcode.instr, canRaise])
      · have : executePop (.one (.memoryLocation n)) s = .ok ((s.setStack rest).setCell i v) 0 := by
          simp [executePop, hp, validAddress, hc, State.memWrite, Result.ofExcept]
        rw [this]; exact .ok (.pop hc hs)
    · have : executePop (.one (.memoryLocation n)) s = .fail .stackNotReady := by
        simp [executePop, hp]
      rw [this]; exact .fail (by simp [Opcode.instr, canRaise])

theorem executeCmp_case (o : Operands) (s : State) : ExecuteCase s .cmp o (executeCmp o s) := by
  match o with
  | .zero | .one _ => exact .fail (by simp [Opcode.instr, canRaise])
  | .two o1 o2 =>
    rcases resolves_or_badAddress s o1 with ⟨x, hx, hr1⟩ | ⟨_, hr1⟩
    · rcases resolves_or_badAddress s o2 with ⟨y, hy, hr2⟩ | ⟨_, hr2⟩
      · have : executeCmp (.two o1 o2) s = .ok (s.setCr (compareW x y)) 0 := by
          simp [executeCmp, hr1, hr2]
        rw [this]; exact .ok (.cmp hx hy)
      · have : executeCmp (.two o1 o2) s = .fail .invalidMemoryLocation := by
          simp [executeCmp, hr1, hr2]
        rw [this]; exact .fail (by simp [Opcode.instr, canRaise])
    · have : executeCmp (.two o1 o2) s = .fail .invalidMemoryLocation := by simp [executeCmp, hr1]
      rw [this]; exact .fail (by simp [Opcode.instr, canRaise])

theorem executeOutput_case (o : Operands) (s : State) :
    ExecuteCase s .output o (executeOutput o s) := by
  match o with
  | .zero | .two _ _ => exact .fail (by simp [Opcode.instr, canRaise])
  | .one o1 =>
    rcases resolves_or_badAddress s o1 with ⟨v, hv, hr⟩ | ⟨_, hr⟩
    · have : executeOutput (.one o1) s = .ok (s.emit (.output v)) 0 := by simp [executeOutput, hr]
      rw [this]; exact .ok (.output hv)
    · have : executeOutput (.one o1) s = .fail .invalidMemoryLocation := by
        simp [executeOutput, hr]
      rw [this]; exact .fail (by simp [Opcode.instr, canRaise])

/-- What `execute` can answer, for every opcode. -/
theorem execute_case (op : Opcode) (o : Operands) (s : State) :
    ExecuteCase s op o (execute op o s) := by
  cases op with
  | add => exact binaryOnStack_case o s (.inl ⟨rfl, rfl⟩)
  | mul => exact binaryOnStack_case o s (.inr ⟨rfl, rfl⟩)
  | mov => exact executeMov_case o s
  | push => exact executePush_case o s
  | pop => exact executePop_case o s
  | cmp => exact executeCmp_case o s
  | jz => exact executeJump_case (.inl rfl) _ _ o s
  | jnz => exact executeJump_case (.inr (.inl rfl)) _ _ o s
  | jpos => exact executeJump_case (.inr (.inr rfl)) _ _ o s
  | output => exact executeOutput_case o s
  | exit => exact .ok .exit

/-- A success moves neither `ip` nor the fault status, nor the inputs of the run: the step cycle
does the first two. -/
theorem Effect.frame {s t : State} {op : Opcode} {o : Operands} {d : Word}
    (h : Effect s op o t d) :
    t.ip = s.ip ∧ t.fs = s.fs ∧ t.lic = s.lic ∧ t.im = s.im ∧ t.params = s.params := by
  cases h <;> simp

/-- What a slot can do: the cases of R52. -/
inductive ExecCase (i : Instr) (s : State) : State → Prop where
  | nop : i = .nop → ExecCase i s s.advance
  | parseFail {k : FailureKind} : i.record = .parseFail k → ExecCase i s (s.takeFailure k)
  | ok {op : Opcode} {o : Operands} {t : State} {d : Word} : i = op.instr (.ops o) →
      Effect s op o t d → ExecCase i s ((t.setLic (category op)).applyDistance d)
  | fail {op : Opcode} {o : Operands} {k : FailureKind} : i = op.instr (.ops o) →
      canRaise i k = true → execute op o s = .fail k →
      ExecCase i s ((s.setLic (category op)).takeFailure k)
  | overflow {o1 : Operand} {v : Word} : i = .push (.ops (.one o1)) → Resolves s o1 v →
      s.params.stackDepth = some s.depth → ExecCase i s (s.machineFault .stackOverflow)

/-- `exec` of a slot with an opcode is the dispatch of that opcode's `execute`. -/
theorem exec_opcode (op : Opcode) (args : OperandField) (s : State) :
    exec (op.instr args) s = dispatch op (execute op) args s := by
  cases op <;> rfl

theorem record_opcode (op : Opcode) (args : OperandField) :
    (op.instr args).record = args.record op := by
  cases op <;> rfl

/-- An instruction is a NONE slot, a parse-stage failure, or an opcode with operands. -/
theorem instr_cases (i : Instr) :
    i = .nop ∨ (∃ k, i.record = .parseFail k ∧ ∀ s, exec i s = .next (s.takeFailure k)) ∨
      ∃ (op : Opcode) (o : Operands), i = op.instr (.ops o) := by
  have op : ∀ (op : Opcode) args, (∃ k, (op.instr args).record = .parseFail k ∧
      ∀ s, exec (op.instr args) s = .next (s.takeFailure k)) ∨
      ∃ (op' : Opcode) (o : Operands), op.instr args = op'.instr (.ops o) := fun op args => by
    cases args with
    | ops o => exact .inr ⟨op, o, rfl⟩
    | count3 =>
      exact .inl ⟨_, record_opcode op _, fun s => by rw [exec_opcode]; rfl⟩
  cases i with
  | nop => exact .inl rfl
  | add a => exact .inr (op .add a)
  | mul a => exact .inr (op .mul a)
  | mov a => exact .inr (op .mov a)
  | push a => exact .inr (op .push a)
  | pop a => exact .inr (op .pop a)
  | cmp a => exact .inr (op .cmp a)
  | jz a => exact .inr (op .jz a)
  | jnz a => exact .inr (op .jnz a)
  | jpos a => exact .inr (op .jpos a)
  | output a => exact .inr (op .output a)
  | exit a => exact .inr (op .exit a)
  | reserved12 => exact .inr (.inl ⟨_, rfl, fun _ => rfl⟩)
  | reserved13 => exact .inr (.inl ⟨_, rfl, fun _ => rfl⟩)
  | reserved14 => exact .inr (.inl ⟨_, rfl, fun _ => rfl⟩)
  | pfail k => exact .inr (.inl ⟨_, rfl, fun _ => rfl⟩)

/-- The inversion of `exec`: everything a slot can do. -/
theorem exec_cases {i : Instr} {s t : State} (h : exec i s = .next t) : ExecCase i s t := by
  rcases instr_cases i with rfl | ⟨k, hk, hx⟩ | ⟨op, o, rfl⟩
  · cases h; exact .nop rfl
  · rw [hx] at h; cases h; exact .parseFail hk
  · rw [exec_opcode] at h
    have hc := execute_case op o s
    have hd : dispatch op (execute op) (.ops o) s =
      .next (s.finish (category op) (execute op o s)) := rfl
    rw [hd] at h
    cases h
    generalize hr : execute op o s = r at hc
    cases hc with
    | ok he => exact .ok rfl he
    | fail hk => exact .fail rfl hk hr
    | overflow hop ho hv hf => subst hop ho; exact .overflow rfl hv hf

end Sys2Proof.Machine
end

