-- ==== Sys2Proof/Laws/PerInstr.lean ====
section
/-! SUPPORT. The per-instruction family `EncodeOpcode`: the word of an instruction carries its row's
opcode number in bits 71:68 (R44, R45, R50). -/

namespace Sys2Proof.Laws

def EncodeOpcode.Statement (i : Instr) : Prop :=
  (Fields.ofWord (encode i)).opc = i.opcodeNumber

theorem EncodeOpcode.nop : EncodeOpcode.Statement .nop := by
  simp only [EncodeOpcode.Statement, encode, ofWord_toWord]

theorem EncodeOpcode.add (args : OperandField) : EncodeOpcode.Statement (.add args) :=
  encodeArgs_opc _ args

theorem EncodeOpcode.mul (args : OperandField) : EncodeOpcode.Statement (.mul args) :=
  encodeArgs_opc _ args

theorem EncodeOpcode.mov (args : OperandField) : EncodeOpcode.Statement (.mov args) :=
  encodeArgs_opc _ args

theorem EncodeOpcode.push (args : OperandField) : EncodeOpcode.Statement (.push args) :=
  encodeArgs_opc _ args

theorem EncodeOpcode.pop (args : OperandField) : EncodeOpcode.Statement (.pop args) :=
  encodeArgs_opc _ args

theorem EncodeOpcode.cmp (args : OperandField) : EncodeOpcode.Statement (.cmp args) :=
  encodeArgs_opc _ args

theorem EncodeOpcode.jz (args : OperandField) : EncodeOpcode.Statement (.jz args) :=
  encodeArgs_opc _ args

theorem EncodeOpcode.jnz (args : OperandField) : EncodeOpcode.Statement (.jnz args) :=
  encodeArgs_opc _ args

theorem EncodeOpcode.jpos (args : OperandField) : EncodeOpcode.Statement (.jpos args) :=
  encodeArgs_opc _ args

theorem EncodeOpcode.output (args : OperandField) : EncodeOpcode.Statement (.output args) :=
  encodeArgs_opc _ args

theorem EncodeOpcode.exit (args : OperandField) : EncodeOpcode.Statement (.exit args) :=
  encodeArgs_opc _ args

theorem EncodeOpcode.reserved12 : EncodeOpcode.Statement .reserved12 := by
  simp only [EncodeOpcode.Statement, encode, ofWord_toWord]

theorem EncodeOpcode.reserved13 : EncodeOpcode.Statement .reserved13 := by
  simp only [EncodeOpcode.Statement, encode, ofWord_toWord]

theorem EncodeOpcode.reserved14 : EncodeOpcode.Statement .reserved14 := by
  simp only [EncodeOpcode.Statement, encode, ofWord_toWord]

theorem EncodeOpcode.pfail (kind : FailureKind) : EncodeOpcode.Statement (.pfail kind) := by
  simp only [EncodeOpcode.Statement, encode, ofWord_toWord]

end Sys2Proof.Laws
end

