-- ==== Sys2Proof/Laws/Text.lean ====
section
/-! SUPPORT. What the parser does with a keyword and its argument tokens (R34 to R39), said once:
`writtenAs`, how every opcode is written as a word and as a line. -/

namespace Sys2Proof.Machine

/-! ### Trimming -/

/-- A text without its leading whitespace. -/
def trimLeft (l : Line) : Line := l.dropWhile isBlank

/-- A text without its trailing whitespace. -/
def trimRight (l : Line) : Line := (l.reverse.dropWhile isBlank).reverse

theorem trim_eq (l : Line) : trim l = trimRight (trimLeft l) := rfl

theorem trimLeft_trimLeft (l : Line) : trimLeft (trimLeft l) = trimLeft l :=
  List.dropWhile_idempotent (p := isBlank) l

theorem trimRight_trimRight (l : Line) : trimRight (trimRight l) = trimRight l := by
  unfold trimRight
  rw [List.reverse_reverse, List.dropWhile_idempotent (p := isBlank) l.reverse]

theorem trimRight_append (k l : Line) :
    trimRight (k ++ l) = if trimRight l = [] then trimRight k else k ++ trimRight l := by
  unfold trimRight
  rw [List.reverse_append, List.dropWhile_append]
  by_cases h : List.dropWhile isBlank l.reverse = []
  · simp [h]
  · simp [h]

theorem trimRight_singleton {x : Char} (h : isBlank x = false) : trimRight [x] = [x] := by
  simp [trimRight, h]

theorem trimRight_blank {x : Char} (h : isBlank x = true) : trimRight [x] = [] := by
  simp [trimRight, h]

/-- The two sides are trimmed independently. -/
theorem trimLeft_trimRight (l : Line) : trimLeft (trimRight l) = trimRight (trimLeft l) := by
  induction l with
  | nil => rfl
  | cons x xs ih =>
    have hx := trimRight_append [x] xs
    rw [List.singleton_append] at hx
    rw [hx]
    cases hb : isBlank x
    · have hl : trimLeft (x :: xs) = x :: xs := by simp [trimLeft, hb]
      rw [hl, hx, trimRight_singleton hb]
      split <;> simp [trimLeft, hb]
    · have hl : trimLeft (x :: xs) = trimLeft xs := by simp [trimLeft, hb]
      rw [hl, ← ih, trimRight_blank hb]
      split
      · rename_i h; rw [h]
      · simp [trimLeft, hb]

/-- Only whitespace is left with nothing on either side. -/
theorem trimRight_eq_nil_of_trimLeft {l : Line} (h : trimLeft l = []) : trimRight l = [] := by
  unfold trimRight
  unfold trimLeft at h
  rw [List.dropWhile_eq_nil_iff] at h
  rw [List.reverse_eq_nil_iff, List.dropWhile_eq_nil_iff]
  exact fun x hx => h x (List.mem_reverse.1 hx)

/-- Classification does not see whitespace around a token (R37). -/
theorem classify_trimLeft (l : Line) : classify (trimLeft l) = classify l := by
  unfold classify; rw [trim_eq, trimLeft_trimLeft, ← trim_eq]

theorem classify_trimRight (l : Line) : classify (trimRight l) = classify l := by
  unfold classify; rw [trim_eq, trimLeft_trimRight, trimRight_trimRight, ← trim_eq]

/-! ### Splitting -/

theorem splitCommas_ne_nil (l : Line) : splitCommas l ≠ [] := by
  cases l with
  | nil => simp [splitCommas]
  | cons x xs =>
    unfold splitCommas
    split
    · simp
    · split <;> simp

theorem splitCommas_plain {l : Line} (h : ',' ∉ l) : splitCommas l = [l] := by
  induction l with
  | nil => rfl
  | cons x xs ih =>
    simp only [List.mem_cons, not_or] at h
    unfold splitCommas
    rw [if_neg (Ne.symm h.1), ih h.2]

theorem splitCommas_comma {k : Line} (l : Line) (h : ',' ∉ k) :
    splitCommas (k ++ ',' :: l) = k :: splitCommas l := by
  induction k with
  | nil => simp [splitCommas]
  | cons x xs ih =>
    simp only [List.mem_cons, not_or] at h
    rw [List.cons_append, splitCommas.eq_2, if_neg (Ne.symm h.1), ih h.2]

theorem tokensOf_ne_nil {l : Line} (h : l ≠ []) : tokensOf l = splitCommas l := by
  cases l with
  | nil => exact absurd rfl h
  | cons x xs => rfl

/-! ### Statements -/

theorem stripComment_plain {l : Line} (h : ';' ∉ l) : stripComment l = l := by
  unfold stripComment
  rw [List.takeWhile_eq_self_iff]
  intro x hx
  simp only [bne_iff_ne, ne_eq]
  rintro rfl
  exact h hx

/-- A keyword of the table with a remainder that is not blank (R34 to R41). -/
theorem parseLine_keyword {kw rest : Line} {op : Opcode} (h0 : kw ≠ [])
    (hk : ∀ x ∈ kw, isBlank x = false ∧ x ≠ ';') (hs : ';' ∉ rest) (hr : trimRight rest ≠ [])
    (hl : lookupKeyword kw = some op) :
    parseLine (kw ++ ' ' :: rest) =
      instrOf op (operandsOf (tokensOf (trimLeft (trimRight rest)))) := by
  have hb : ∀ x ∈ kw, (! isBlank x) = true := fun x hx => by simp [(hk x hx).1]
  have hplain : ';' ∉ kw ++ ' ' :: rest := by
    simp only [List.mem_append, List.mem_cons, not_or]
    exact ⟨fun h => (hk _ h).2 rfl, by decide, hs⟩
  have hst : statementOf (kw ++ ' ' :: rest) = kw ++ ' ' :: trimRight rest := by
    unfold statementOf
    rw [stripComment_plain hplain, trim_eq]
    have hleft : trimLeft (kw ++ ' ' :: rest) = kw ++ ' ' :: rest := by
      cases kw with
      | nil => exact absurd rfl h0
      | cons x xs => simp [trimLeft, (hk x (by simp)).1]
    have hsp : trimRight (' ' :: rest) = ' ' :: trimRight rest := by
      rw [← List.singleton_append, trimRight_append, if_neg hr, List.singleton_append]
    rw [hleft, trimRight_append, hsp, if_neg (by simp)]
  have hsp : (! isBlank ' ') = false := rfl
  have hkw : keywordOf (kw ++ ' ' :: trimRight rest) = kw := by
    unfold keywordOf
    rw [List.takeWhile_append_of_pos hb, List.takeWhile_cons_of_neg (by simp [hsp]),
      List.append_nil]
  have hrem : remainderOf (kw ++ ' ' :: trimRight rest) = trimLeft (trimRight rest) := by
    unfold remainderOf
    rw [List.dropWhile_append_of_pos hb, List.dropWhile_cons_of_neg (by simp [hsp])]
    exact List.dropWhile_cons_of_pos rfl
  unfold parseLine
  rw [hst]
  rcases hc : kw ++ ' ' :: trimRight rest with _ | ⟨x, xs⟩
  · simp at hc
  · simp only []
    rw [← hc]
    simp only [parseStatement, hkw, hrem, hl]

/-- A token that reads as an operand is not blank. -/
theorem ArgToken.trimRight_ne {a : Line} {o : Operand} (h : ArgToken a o) : trimRight a ≠ [] := by
  intro he
  have := classify_trimRight a
  rw [he, h.2.2] at this
  cases this

theorem mem_trimRight {x : Char} {l : Line} (h : x ∈ trimRight l) : x ∈ l := by
  unfold trimRight at h
  rw [List.mem_reverse] at h
  exact List.mem_reverse.1 (List.dropWhile_subset _ h)

/-- What holds of every keyword of the table of R35. -/
theorem keywordTable_entry {p : Line × Opcode} (hp : p ∈ keywordTable) :
    p.1 ≠ [] ∧ (∀ x ∈ p.1, isBlank x = false ∧ x ≠ ';' ∧ 65 ≤ x.toNat ∧ x.toNat ≤ 90) ∧
      lookupKeyword p.1 = some p.2 ∧ parseLine p.1 = p.2.instr (.ops .zero) := by
  have hall : keywordTable.all (fun p => decide (p.1 ≠ []) &&
      p.1.all (fun x => ! isBlank x && decide (x ≠ ';' ∧ 65 ≤ x.toNat ∧ x.toNat ≤ 90)) &&
      decide (lookupKeyword p.1 = some p.2 ∧ parseLine p.1 = p.2.instr (.ops .zero))) = true := by
    decide
  have h := List.all_eq_true.1 hall p hp
  simpa [List.all_eq_true, and_assoc] using h

/-- One token after a keyword (R36). -/
theorem parseLine_oneToken {p : Line × Opcode} {a : Line} (hp : p ∈ keywordTable) (hc : ',' ∉ a)
    (hs : ';' ∉ a) (hr : trimRight a ≠ []) :
    parseLine (p.1 ++ ' ' :: a) = instrOf p.2 ((classify a).map .one) := by
  obtain ⟨h0, hk, hl, -⟩ := keywordTable_entry hp
  have hne : trimLeft (trimRight a) ≠ [] := fun he => hr (by
    rw [← trimRight_trimRight, trimRight_eq_nil_of_trimLeft he])
  have hc' : ',' ∉ trimLeft (trimRight a) := fun h =>
    hc (mem_trimRight (List.dropWhile_subset _ h))
  rw [parseLine_keyword h0 (fun x hx => ⟨(hk x hx).1, (hk x hx).2.1⟩) hs hr hl,
    tokensOf_ne_nil hne, splitCommas_plain hc']
  simp only [operandsOf, classify_trimLeft, classify_trimRight]
  cases classify a <;> rfl

/-- Two tokens after a keyword: the left one is read first (R36, R39, R40). -/
theorem parseLine_twoTokens {p : Line × Opcode} {a b : Line} (hp : p ∈ keywordTable)
    (hca : ',' ∉ a) (hsa : ';' ∉ a) (hcb : ',' ∉ b) (hsb : ';' ∉ b) :
    parseLine (p.1 ++ ' ' :: (a ++ ',' :: b)) =
      instrOf p.2 ((classify a).bind fun o1 => (classify b).map (.two o1)) := by
  obtain ⟨h0, hk, hl, -⟩ := keywordTable_entry hp
  have hb : trimRight (',' :: b) = ',' :: trimRight b := by
    rw [← List.singleton_append, trimRight_append, trimRight_singleton rfl]
    split
    · rename_i he; rw [he]
    · rfl
  have hr : trimRight (a ++ ',' :: b) = a ++ ',' :: trimRight b := by
    rw [trimRight_append, hb, if_neg (by simp)]
  have hleft : trimLeft (a ++ ',' :: trimRight b) = trimLeft a ++ ',' :: trimRight b := by
    unfold trimLeft
    rw [List.dropWhile_append]
    split
    · rename_i h
      rw [List.isEmpty_iff] at h
      rw [h]; rfl
    · rfl
  have hs : ';' ∉ a ++ ',' :: b := by
    simp only [List.mem_append, List.mem_cons, not_or]
    exact ⟨hsa, by decide, hsb⟩
  have hca' : ',' ∉ trimLeft a := fun h => hca (List.dropWhile_subset _ h)
  have hcb' : ',' ∉ trimRight b := fun h => hcb (mem_trimRight h)
  rw [parseLine_keyword h0 (fun x hx => ⟨(hk x hx).1, (hk x hx).2.1⟩) hs (by rw [hr]; simp) hl,
    hr, hleft, tokensOf_ne_nil (by simp), splitCommas_comma _ hca', splitCommas_plain hcb']
  simp only [operandsOf, classify_trimLeft, classify_trimRight]
  cases classify a with
  | error k => rfl
  | ok o1 => cases classify b <;> rfl

/-- The words and lines of every opcode: its number of R45 and its keyword of R35. -/
theorem writtenAs {op : Opcode} {number : BitVec 4} {kw : Line}
    (hn : opcodeOfNumber number.toNat = some op) (hm : (kw, op) ∈ keywordTable) :
    WrittenAs op number kw := by
  have hdec : ∀ f : Fields, f.opc = number → decode f.toWord = op.instr f.operandField := by
    rintro f rfl
    unfold decode
    rw [ofWord_toWord]
    simp only []
    generalize f.opc.toNat = n at hn
    unfold opcodeOfNumber at hn
    split at hn <;> cases hn <;> rfl
  refine ⟨?_, ?_, ?_, (keywordTable_entry hm).2.2.2, ?_, ?_⟩
  · intro t1 t2 v1 v2; rw [hdec _ rfl]; rfl
  · intro o1 t2 v2; rw [hdec _ rfl]; simp [Fields.operandField, decodeOperand_tag_value]
  · intro o1 o2; rw [hdec _ rfl]; simp [Fields.operandField, decodeOperand_tag_value]
  · intro a o1 ha
    rw [parseLine_oneToken hm ha.1 ha.2.1 ha.trimRight_ne, ha.2.2]; rfl
  · intro a b o1 o2 ha hb
    rw [parseLine_twoTokens hm ha.1 ha.2.1 hb.1 hb.2.1, ha.2.2, hb.2.2]; rfl

/-! ### Case -/

theorem upperCase_toNat (x : Char) : (upperCase x).toNat =
    if 97 ≤ x.toNat ∧ x.toNat ≤ 122 then x.toNat - 32 else x.toNat := by
  unfold upperCase
  split
  · have hv : (x.toNat - 32).isValidChar := by left; omega
    rw [Char.ofNat, dif_pos hv]; rfl
  · rfl

/-- The spellings of a table keyword are the texts that normalise to it (R35). -/
theorem caseVariant_iff {p : Line × Opcode} (hp : p ∈ keywordTable) (kw : Line) :
    CaseVariant kw p.1 ↔ kw.map upperCase = p.1 := by
  have hup : ∀ x ∈ p.1, 65 ≤ x.toNat ∧ x.toNat ≤ 90 := fun x hx =>
    ((keywordTable_entry hp).2.1 x hx).2.2
  unfold CaseVariant
  generalize p.1 = up at hup
  have fold : ∀ k c : Char, 65 ≤ c.toNat ∧ c.toNat ≤ 90 →
      ((k = c ∨ ('a' ≤ k ∧ k ≤ 'z' ∧ k.toNat = c.toNat + 32)) ↔ upperCase k = c) := by
    intro k c hc
    have ha : 'a' ≤ k ↔ 97 ≤ k.toNat := Iff.rfl
    have hz : k ≤ 'z' ↔ k.toNat ≤ 122 := Iff.rfl
    rw [ha, hz, ← Char.toNat_inj, ← Char.toNat_inj (c := upperCase k), upperCase_toNat]
    split <;> omega
  induction kw generalizing up with
  | nil => cases up <;> simp
  | cons k ks ih =>
    cases up with
    | nil => simp
    | cons c cs =>
      rw [List.forall₂_cons, List.map_cons, List.cons.injEq]
      exact and_congr (fold k c (hup c (by simp))) (ih cs fun x hx => hup x (by simp [hx]))

end Sys2Proof.Machine
end

