-- ==== Sys2Proof/Tests/Slice0.lean ====
section
/-! SUPPORT. The model's own tests: ill-formed terms are refused; words and lines written out from
spec/ decode and parse as spec/ says; one step per instruction (expected values from
spec/95_test_vectors.md and the examples in the rules); and for every obligation with hypotheses a
concrete state and operands that meet them. -/

namespace Sys2Proof.Tests

open Sys2Proof Sys2Proof.Machine

/-! ### Helpers -/

/-- A state in slot 3 of a sixteen-slot program of blank lines, with the given stack (top first),
`LIC` and `CR`; the stack holds at most two entries. -/
def st (stack : List Word) (lic : Category := .none) (cr : CmpResult := .equal) : State :=
  { State.resetWith ⟨some 2, .equal⟩ (List.replicate 16 0) with
    stack := stack, lic := lic, cr := cr, ip := 3 }

/-- The state after one instruction, `State.reset` when there is none. -/
def after (i : Instr) (s : State) : State :=
  match exec i s with
  | .next t => t
  | .fault _ => State.reset
  | .refused _ => State.reset

/-- The state after one step, `State.reset` when there is none. -/
def afterStep (s : State) : State :=
  match step s with
  | .next t => t
  | .fault _ => State.reset
  | .refused _ => State.reset

/-- Cell operand. -/
abbrev c (n : Word) : Operand := .memoryLocation n

/-- Literal operand. -/
abbrev i (v : Word) : Operand := .integer v

/-! ### Ill-formed terms and invalid forms are refused -/

theorem test_pfail_stackNotReady_illFormed :
    (Instr.pfail .stackNotReady).wellFormed = false := by decide

theorem test_pfail_invalidOperand_illFormed :
    (Instr.pfail .invalidOperand).wellFormed = false := by decide

theorem test_pfail_illegalJump_illFormed :
    (Instr.pfail .illegalJumpInstruction).wellFormed = false := by decide

theorem test_pfail_parseStage_wellFormed :
    (Instr.pfail .badIntegerLiteral).wellFormed = true := by decide

/-- R42: each row refuses a form that is not its own. -/
theorem test_validForm_refuses :
    (Instr.add (.ops (.one (i 1)))).validForm = false ∧
    (Instr.mov (.ops (.two (i 5) (c 1)))).validForm = false ∧
    (Instr.cmp (.ops (.one (i 1)))).validForm = false ∧
    (Instr.push (.ops .zero)).validForm = false ∧
    (Instr.pop (.ops (.one (i 5)))).validForm = false ∧
    (Instr.jz (.ops (.two (i 0) (c 1)))).validForm = false ∧
    (Instr.exit (.ops (.one (i 5)))).validForm = false ∧
    (Instr.output .count3).validForm = false := by decide

theorem test_decode_tooManyBits : decodeSized 73 0 = .error .tooManyBits := by rfl

theorem test_decode_valueTooLarge : decodeSized 8 256 = .error .valueTooLarge := by rfl

/-! ### Decoding: words from the table of R50 and from R44 to R49 -/

theorem test_decode_none : decode 0x0FFFFFFFFFFFFFFFFF = .nop := by decide

theorem test_decode_add : decode 0x100000000000000000 = .add (.ops .zero) := by decide

/-- `ADD 1`: an absent operand's value field is ignored. -/
theorem test_decode_add_one : decode 0x1400000001FFFFFFFF = .add (.ops (.one (i 1))) := by decide

theorem test_decode_mul : decode 0x200000000000000000 = .mul (.ops .zero) := by decide

/-- `MOV M1,5`, bit by bit: `opc` 0011, `cnt` 10, `t1` 1, `t2` 0, then 1 and 5 in 32 bits. -/
theorem test_decode_mov :
    decode 0b001110100000000000000000000000000000000100000000000000000000000000000101 =
      .mov (.ops (.two (c 1) (i 5))) := by decide

/-- `MOV 5,M1`: it decodes and fails later. -/
theorem test_decode_mov_literal_first :
    decode 0x390000000500000001 = .mov (.ops (.two (i 5) (c 1))) := by decide

/-- `PUSH -1`, bit by bit: `opc` 0100, `cnt` 01, tags 0 0, thirty-two ones, thirty-two zeros. -/
theorem test_decode_push :
    decode 0b010001001111111111111111111111111111111100000000000000000000000000000000 =
      .push (.ops (.one (i (-1)))) := by decide

theorem test_decode_pop : decode 0x560000000100000000 = .pop (.ops (.one (c 1))) := by decide

/-- `CMP M1,1`, bit by bit: `opc` 0110, `cnt` 10, `t1` 1, `t2` 0, then 1 and 1. -/
theorem test_decode_cmp :
    decode 0b011010100000000000000000000000000000000100000000000000000000000000000001 =
      .cmp (.ops (.two (c 1) (i 1))) := by decide

/-- `JZ 10`, bit by bit: `opc` 0111, `cnt` 01, tags 0 0, then 10 and 0. -/
theorem test_decode_jz :
    decode 0b011101000000000000000000000000000000101000000000000000000000000000000000 =
      .jz (.ops (.one (i 10))) := by decide

theorem test_decode_jnz :
    decode 0x8800000001FFFFFFF6 = .jnz (.ops (.two (i 1) (i (-10)))) := by decide

theorem test_decode_jpos :
    decode 0x9A00000001FFFFFFFB = .jpos (.ops (.two (c 1) (i (-5)))) := by decide

/-- `OUTPUT M1`, bit by bit: `opc` 1010, `cnt` 01, `t1` 1, `t2` 0, then 1 and 0. -/
theorem test_decode_output :
    decode 0b101001100000000000000000000000000000000100000000000000000000000000000000 =
      .output (.ops (.one (c 1))) := by decide

theorem test_decode_exit : decode 0xB40000000500000000 = .exit (.ops (.one (i 5))) := by decide

theorem test_decode_reserved12 : decode 0xC00000000000000000 = .reserved12 := by decide

theorem test_decode_reserved13 : decode 0xD00000000000000000 = .reserved13 := by decide

theorem test_decode_reserved14 : decode 0xE40000000100000000 = .reserved14 := by decide

/-- `PUSH M12`, bit by bit: `opc` 1111 and code 6 in `v2`. -/
theorem test_decode_pfail :
    decode 0b111100000000000000000000000000000000000000000000000000000000000000000110 =
      .pfail .invalidMemoryLocation := by decide

/-- R48: a code other than 2, 5, 6, 7 reads as InvalidCommand. -/
theorem test_decode_pfail_otherCode : decode 0xF00000000000000001 = .pfail .invalidCommand := by
  decide

theorem test_decode_count3 : decode 0x1C0000000000000000 = .add .count3 := by decide

theorem test_encode_words :
    encode .nop = 0x000000000000000000 ∧
    encode (.mov (.ops (.two (c 1) (i 5)))) = 0x3A0000000100000005 ∧
    encode (.jpos (.ops (.two (c 1) (i (-5))))) = 0x9A00000001FFFFFFFB ∧
    encode (.exit (.ops .zero)) = 0xB00000000000000000 ∧
    encode (.pfail .badIntegerLiteral) = 0xF00000000000000007 := by decide

theorem test_decodeTableWord :
    decodeTableWord 72 0x8800000001FFFFFFF6 = some (.jnz (.ops (.two (i 1) (i (-10))))) := by
  decide

/-! ### Parsing: lines from the table of worked examples of spec/30_encoding.md -/

theorem test_parse_trims :
    parseLine "mov m1 , -7 ; x".toList = .mov (.ops (.two (c 1) (i (-7)))) := by decide

theorem test_parse_cellLetter : parseLine "PUSH mA".toList = .push (.ops (.one (c 17))) := by
  decide

theorem test_parse_order :
    parseLine "FOO 1,2,3".toList = .pfail .invalidCommand ∧
    parseLine "MOV Mxy,1,2".toList = .pfail .invalidNumberOfParams ∧
    parseLine "MOV M10,x".toList = .pfail .invalidMemoryLocation ∧
    parseLine "MOV x,M10".toList = .pfail .badIntegerLiteral := by decide

/-- R35: `mov`, `Mov` and `MOV` are one keyword, `MOVE` is none. -/
theorem test_parse_case :
    parseLine "Mov M1,3".toList = .mov (.ops (.two (c 1) (i 3))) ∧
    parseLine "MOVE M1,3".toList = .pfail .invalidCommand := by decide

theorem test_parse_emptyToken : parseLine "MOV M1,".toList = .pfail .badIntegerLiteral := by decide

theorem test_parse_comment : parseLine "; comment".toList = .nop := by decide

/-- Vector A9: a literal one above the 32-bit range. -/
theorem test_parse_literalRange :
    parseLine "PUSH 2147483648".toList = .pfail .badIntegerLiteral := by decide

theorem test_assemble_word : assembleLine "JNZ 1,-10".toList = 0x8800000001FFFFFFF6 := by decide

/-! ### One step per instruction -/

/-- R66's example, top first: 3 and 2 become 5. -/
theorem test_add : (after (.add (.ops .zero)) (st [3, 2])).stack = [5] := by decide

/-- Vector A1: `2147483647 + 1` wraps. -/
theorem test_add_wraps :
    (after (.add (.ops .zero)) (st [1, 2147483647])).stack = [-2147483648] := by decide

/-- R67's example. -/
theorem test_mul : (after (.mul (.ops .zero)) (st [6, -4])).stack = [-24] := by decide

/-- R65: `46341 * 46341`. -/
theorem test_mul_wraps :
    (after (.mul (.ops .zero)) (st [46341, 46341])).stack = [-2147479015] := by decide

/-- `MOV M8,42`: the last cell. -/
theorem test_mov : (after (.mov (.ops (.two (c 8) (i 42)))) (st [])).cells =
    #v[0, 0, 0, 0, 0, 0, 0, 42] := by decide

/-- `MOV M9,1` fails in its slot. -/
theorem test_mov_badAddress : (after (.mov (.ops (.two (c 9) (i 1)))) (st [])).ev =
    [.failure 3 .invalidMemoryLocation] := by decide

theorem test_push : (after (.push (.ops (.one (i 7)))) (st [1])).stack = [7, 1] := by decide

/-- Vector K7: a full finite stack; `ip` and `LIC` stay. -/
theorem test_push_full : after (.push (.ops (.one (i 3)))) (st [2, 1] .data) =
    { st [2, 1] .data with fs := .stackOverflow } := by decide

/-- R75's example. -/
theorem test_pop : (after (.pop (.ops (.one (c 3)))) (st [7, 1])).cells =
    #v[0, 0, 7, 0, 0, 0, 0, 0] := by decide

/-- Vector K4: the stack is checked before the address. -/
theorem test_pop_empty : (after (.pop (.ops (.one (c 9)))) (st [])).ev =
    [.failure 3 .stackNotReady] := by decide

/-- `CMP -1,0` is signed. -/
theorem test_cmp : (after (.cmp (.ops (.two (i (-1)) (i 0)))) (st [])).cr = .lessThan := by decide

/-- `CMP M9,0` fails and still leaves Comparison in `LIC`. -/
theorem test_cmp_badAddress :
    (after (.cmp (.ops (.two (c 9) (i 0)))) (st [] .data)).lic = .comparison := by decide

/-- R72's example: slot 3 holds `JZ 10`. -/
theorem test_jz : (after (.jz (.ops (.one (i 10)))) (st [] .comparison .equal)).ip = 13 := by
  decide

/-- Vector J20: adjacency before the tag. -/
theorem test_jz_order : (after (.jz (.ops (.one (c 1)))) (st [] .data)).ev =
    [.failure 3 .illegalJumpInstruction] := by decide

theorem test_jnz_back : (after (.jnz (.ops (.two (i 1) (i (-2))))) (st [])).ip = 1 := by decide

/-- Program P5: a jump below slot 0; `ip` keeps its negative value. -/
theorem test_jnz_belowZero : (after (.jnz (.ops (.two (i 1) (i (-7))))) (st [])) =
    { st [] with lic := .jump, ip := -4, fs := .fetchOutOfRange } := by decide

/-- `JPOS -3,5` is never taken. -/
theorem test_jpos_negative : (after (.jpos (.ops (.two (i (-3)) (i 5)))) (st [])).ip = 4 := by
  decide

theorem test_jpos_taken :
    (after (.jpos (.ops (.one (i 5)))) (st [] .comparison .greaterThan)).ip = 8 := by decide

theorem test_output : (after (.output (.ops (.one (i (-3))))) (st [])).ev = [.output (-3)] := by
  decide

/-- Vector E1: `EXIT 5` halts like a plain EXIT. -/
theorem test_exit : (after (.exit (.ops (.one (i 5)))) (st [])).status =
    .complete .exitHalt := by decide

theorem test_none : after .nop (st [] .comparison) = { st [] .comparison with ip := 4 } := by
  decide

theorem test_pfail : after (.pfail .invalidCommand) (st [] .comparison) =
    { st [] .comparison with ip := 4, ev := [.failure 3 .invalidCommand] } := by decide

theorem test_reserved : ∀ j ∈ [Instr.reserved12, .reserved13, .reserved14],
    after j (st [] .comparison) =
      { st [] .comparison with ip := 4, ev := [.failure 3 .invalidCommand] } := by decide

/-- The word placed for the first fetch after reset is the one that runs. -/
theorem test_withFetchWord :
    afterStep (State.reset.withFetchWord 72 0x440000000200000000) =
      { State.reset.withFetchWord 72 0x440000000200000000 with
        stack := [2], lic := .data, ip := 1 } := by decide

/-- Vector E4: the program of no lines is complete without a step. -/
theorem test_emptyProgram : step Sys2Proof.core.reset = .fault .endOfProgram := by rfl

/-! ### Witnesses: the hypotheses of the obligations can be met -/

/-- A running program: `CMP M9,0`, `JZ 2`, `PUSH 1`, `JNZ 1,-9`, from reset. -/
def prog : State :=
  State.loadText ⟨some 0, .equal⟩ ["CMP M9,0".toList, "JZ 2".toList, "PUSH 1".toList,
    "JNZ 1,-9".toList]

theorem witness_runCondition : prog.runCondition = true := by decide

/-- The last slot is inside the run condition, the one after it is not. -/
theorem witness_runCondition_edges :
    ({ prog with ip := 3 } : State).runCondition = true ∧
    ({ prog with ip := 4 } : State).runCondition = false := by decide

theorem witness_ResetGivesTheTableOfR17 :
    prog = State.resetWith ⟨some 0, .equal⟩ prog.im := by rfl

theorem witness_step : step prog = .next (afterStep prog) := by rfl

theorem witness_Reaches : Reaches prog (afterStep prog) := .step .refl witness_step

theorem witness_StepTakenIffRunCondition :
    prog.fs = .noFault ∧ 0 ≤ prog.ip ∧ prog.ip < prog.im.length ∧ prog.lic ≠ .exit := by decide

/-- Each clause of the reasons to stop. -/
theorem witness_StopNamesItsReason :
    (step { prog with lic := .exit, ip := 4 } = .fault .exitHalt) ∧
    (step { prog with ip := 4 } = .fault .endOfProgram) ∧
    (step { prog with fs := .stackOverflow } = .fault .stackOverflow) ∧
    (step { prog with ip := -1, fs := .fetchOutOfRange } = .fault .fetchOutOfRange) ∧
    (step { prog with ip := -1 } = .fault .fetchOutOfRange) := ⟨rfl, rfl, rfl, rfl, rfl⟩

theorem witness_fetchedWord : prog.im[prog.ip.toNat]? = some 0x6A0000000900000000 := by decide

theorem witness_StepRunsTheParsedLine :
    prog.im = assemble ["CMP M9,0".toList, "JZ 2".toList, "PUSH 1".toList, "JNZ 1,-9".toList] ∧
    prog.runCondition = true ∧
    ["CMP M9,0".toList, "JZ 2".toList, "PUSH 1".toList, "JNZ 1,-9".toList][prog.ip.toNat]? =
      some "CMP M9,0".toList := by decide

/-- Each clause: dispatched with success, dispatched into StackOverflow, not dispatched. -/
theorem witness_EveryDispatchWritesTheCategory :
    (exec (.exit (.ops .zero)) (st []) = .next (after (.exit (.ops .zero)) (st [])) ∧
      dispatched (.exit (.ops .zero)) = some .exit) ∧
    (exec (.push (.ops (.one (i 3)))) (st [2, 1]) =
        .next { st [2, 1] with fs := .stackOverflow } ∧
      dispatched (.push (.ops (.one (i 3)))) = some .push) ∧
    (exec .nop (st []) = .next { st [] with ip := 4 } ∧ dispatched .nop = none) :=
  ⟨⟨rfl, rfl⟩, ⟨rfl, rfl⟩, ⟨rfl, rfl⟩⟩

/-- Each clause: no event, an output, a failure. -/
theorem witness_AtMostOneEventPerStep :
    exec .nop (st []) = .next { st [] with ip := 4 } ∧
    exec (.output (.ops (.one (i 1)))) (st []) =
      .next { st [] with lic := .data, ip := 4, ev := [.output 1] } ∧
    exec (.pfail .invalidCommand) (st []) =
      .next { st [] with ip := 4, ev := [.failure 3 .invalidCommand] } := ⟨rfl, rfl, rfl⟩

theorem witness_FailureChangesNothingElse :
    0 ≤ (st [7]).ip ∧
    exec (.add (.ops .zero)) (st [7]) = .next ((st [7]).afterFailure .data .stackNotReady) ∧
    ((st [7]).afterFailure .data .stackNotReady).ev =
      (st [7]).ev ++ [.failure 3 .stackNotReady] := ⟨by decide, rfl, rfl⟩

/-- Both clauses: a failure that a step reports, an entry of the table. -/
theorem witness_FailureKindsAreTheTableOfR82 :
    (exec (.pop (.ops (.one (c 1)))) (st []) =
        .next ((st []).afterFailure .data .stackNotReady) ∧
      ((st []).afterFailure .data .stackNotReady).ev =
        (st []).ev ++ [.failure 3 .stackNotReady]) ∧
    canRaise (Opcode.jz.instr (.ops .zero)) .illegalJumpInstruction = true :=
  ⟨⟨rfl, rfl⟩, by decide⟩

/-- Both clauses: a valid form, an invalid form of an opcode that is not EXIT. -/
theorem witness_ValidFormsAreTheOnesThatCanExecute :
    0 ≤ (st []).ip ∧
    (exec (Opcode.output.instr (.ops (.one (i 1)))) (st []) =
        .next (after (.output (.ops (.one (i 1)))) (st [])) ∧
      (Opcode.output.instr (.ops (.one (i 1)))).validForm = true) ∧
    (exec (Opcode.jz.instr (.ops (.one (c 1)))) (st []) =
        .next (after (.jz (.ops (.one (c 1)))) (st [])) ∧
      (Opcode.jz.instr (.ops (.one (c 1)))).validForm = false ∧ Opcode.jz ≠ .exit) :=
  ⟨by decide, ⟨rfl, rfl⟩, rfl, rfl, by decide⟩

/-- One instruction meets all three conditions. -/
theorem witness_OnlyTheNamedInstructionsWrite :
    exec (.output (.ops (.one (i 1)))) (st []) =
      .next { st [] with lic := .data, ip := 4, ev := [.output 1] } ∧
    writesCells (.output (.ops (.one (i 1)))) = false ∧
    usesStack (.output (.ops (.one (i 1)))) = false ∧
    writesFlag (.output (.ops (.one (i 1)))) = false := ⟨rfl, rfl, rfl, rfl⟩

/-- Both clauses, with an address that is not the destination. -/
theorem witness_StoresReachOnlyTheDestination :
    exec (.mov (.ops (.two (c 8) (i 42)))) (st []) =
      .next (after (.mov (.ops (.two (c 8) (i 42)))) (st [])) ∧
    exec (.pop (.ops (.one (c 1)))) (st [7]) = .next (after (.pop (.ops (.one (c 1)))) (st [7])) ∧
    (2 : Word) ≠ 8 ∧ (2 : Word) ≠ 1 := ⟨rfl, rfl, by decide, by decide⟩

/-- The first and the last address inside, the nearest ones outside. -/
theorem witness_CellReadAfterWrite :
    (1 ≤ (1 : Word).toInt ∧ (1 : Word).toInt ≤ 8) ∧ (1 ≤ (8 : Word).toInt ∧ (8 : Word).toInt ≤ 8) ∧
    (0 : Word).toInt < 1 ∧ 8 < (9 : Word).toInt ∧ (2 : Word) ≠ 1 := by decide

/-- The two ends of the range. -/
theorem witness_WrapKeepsTheLowBits :
    (-2147483648 ≤ (-2147483648 : Int) ∧ (-2147483648 : Int) ≤ 2147483647) ∧
    (-2147483648 ≤ (2147483647 : Int) ∧ (2147483647 : Int) ≤ 2147483647) := by decide

/-- ADD and MUL: two entries, one entry, an operand. -/
theorem witness_stackArithmetic :
    0 ≤ (st [3, 2]).ip ∧ (st [3, 2]).stack = 3 :: 2 :: [] ∧ (st [7]).stack.length < 2 ∧
      Operands.one (i 1) ≠ .zero := by decide

/-- Cell addresses and operands that resolve: the first cell, the last cell, a literal. -/
theorem witness_resolves :
    (1 : Word).toInt = (0 : Fin 8).val + 1 ∧ (8 : Word).toInt = (7 : Fin 8).val + 1 ∧
    Resolves (st []) (c 1) 0 ∧ Resolves (st []) (c 8) 0 ∧ Resolves (st []) (i (-1)) (-1) :=
  ⟨by decide, by decide, ⟨0, by decide, rfl⟩, ⟨7, by decide, rfl⟩, rfl⟩

/-- Addresses just outside, on both sides. -/
theorem witness_badAddress : BadAddress (c 0) ∧ BadAddress (c 9) ∧ BadAddress (c (-1)) :=
  ⟨.inl (by decide), .inr (by decide), .inl (by decide)⟩

theorem witness_MovWritesTheDestinationCell :
    0 ≤ (st []).ip ∧ (8 : Word).toInt = (7 : Fin 8).val + 1 ∧ Resolves (st []) (c 1) 0 ∧
    ((0 : Word).toInt < 1) ∧ (8 < (9 : Word).toInt) ∧ BadAddress (c 9) ∧
    (∀ o1 o2, Operands.one (c 1) ≠ .two o1 o2) :=
  ⟨by decide, by decide, ⟨0, by decide, rfl⟩, by decide, by decide, .inr (by decide),
    fun _ _ h => by cases h⟩

theorem witness_CmpSetsTheFlagBySignedOrder :
    0 ≤ (st []).ip ∧ Resolves (st []) (c 8) 0 ∧ Resolves (st []) (i (-1)) (-1) ∧
    BadAddress (c 9) ∧ (∀ o1 o2, Operands.zero ≠ .two o1 o2) :=
  ⟨by decide, ⟨7, by decide, rfl⟩, rfl, .inr (by decide), fun _ _ h => by cases h⟩

/-- JPOS, JZ and JNZ: with and without Comparison in `LIC`; an operand that resolves; one that
cannot. -/
theorem witness_jumps :
    0 ≤ (st []).ip ∧ (st [] .comparison).lic = .comparison ∧ (st [] .jump).lic ≠ .comparison ∧
    Resolves (st [] .comparison) (c 1) 0 ∧ BadAddress (c 0) :=
  ⟨by decide, rfl, by decide, ⟨0, by decide, rfl⟩, .inl (by decide)⟩

/-- Each clause: after an OUTPUT, after a failed CMP, after a blank line. -/
theorem witness_FlagJumpNeedsAPrecedingCompare :
    (exec (.output (.ops (.one (i 1)))) (st []) =
        .next { st [] with lic := .data, ip := 4, ev := [.output 1] } ∧
      dispatched (.output (.ops (.one (i 1)))) = some .output ∧ Opcode.output ≠ .cmp) ∧
    (exec (.cmp (.ops (.two (c 9) (i 0)))) (st []) =
        .next ((st []).afterFailure .comparison .invalidMemoryLocation) ∧
      dispatched (.cmp (.ops (.two (c 9) (i 0)))) = some .cmp) ∧
    (exec .nop (st []) = .next { st [] with ip := 4 } ∧ dispatched .nop = none) ∧
    (0 ≤ ({ st [] with ip := 4 } : State).ip ∧ ({ st [] with ip := 4 } : State).fs = .noFault ∧
      isFlagJump (.jz (.ops (.one (i 2)))) = true) :=
  ⟨⟨rfl, rfl, by decide⟩, ⟨rfl, rfl⟩, ⟨rfl, rfl⟩, by decide, rfl, rfl⟩

/-- Room for exactly one more, and a full stack. -/
theorem witness_PushPutsTheValueOnTop :
    0 ≤ (st [1]).ip ∧ Resolves (st [1]) (i 7) 7 ∧
    (st [1]).params.stackDepth ≠ some (st [1]).stack.length ∧
    (st [2, 1]).params.stackDepth = some (st [2, 1]).stack.length ∧
    Resolves (st [2, 1]) (i 7) 7 ∧ BadAddress (c 9) ∧ (∀ o1, Operands.zero ≠ .one o1) :=
  ⟨by decide, rfl, by decide, by decide, rfl, .inr (by decide), fun _ h => by cases h⟩

theorem witness_PopMovesTheTopToTheCell :
    0 ≤ (st [7, 1]).ip ∧ (8 : Word).toInt = (7 : Fin 8).val + 1 ∧ (st [7, 1]).stack = 7 :: [1] ∧
    (st []).stack = [] ∧ (st [7]).stack ≠ [] ∧ (0 : Word).toInt < 1 ∧ 8 < (9 : Word).toInt ∧
    (∀ o1, Operands.zero ≠ .one o1) :=
  ⟨by decide, by decide, rfl, rfl, by decide, by decide, by decide, fun _ h => by cases h⟩

theorem witness_PushThenPopRoundTrips :
    0 ≤ (st [1]).ip ∧ Resolves (st [1]) (i 7) 7 ∧
    (st [1]).params.stackDepth ≠ some (st [1]).stack.length ∧
    (3 : Word).toInt = (2 : Fin 8).val + 1 := ⟨by decide, rfl, by decide, by decide⟩

theorem witness_OutputEmitsTheValue :
    0 ≤ (st []).ip ∧ Resolves (st []) (c 8) 0 ∧ BadAddress (c 9) ∧
    (∀ o1, Operands.two (i 1) (i 2) ≠ .one o1) :=
  ⟨by decide, ⟨7, by decide, rfl⟩, .inr (by decide), fun _ h => by cases h⟩

theorem witness_ExitCompletesTheRun :
    0 ≤ (st []).ip ∧ (st []).fs = .noFault ∧
    exec (.exit (.ops .zero)) (st []) = .next { st [] with lic := .exit, ip := 4 } ∧
    ({ st [] with lic := .exit, ip := 4 } : State).lic = .exit := ⟨by decide, rfl, rfl, rfl⟩

/-- The first and the last opcode number with a reserved count. -/
theorem witness_ReservedWordsFailAtTheParseStage :
    opcodeOfNumber (1 : BitVec 4).toNat = some .add ∧
    opcodeOfNumber (11 : BitVec 4).toNat = some .exit ∧ 0 ≤ (st []).ip ∧
    Instr.reserved12 ∈ [Instr.reserved12, .reserved13, .reserved14] ∧
    Instr.reserved14 ∈ [Instr.reserved12, .reserved13, .reserved14] := by decide

/-- The first slot: for NONE, PFAIL and every other statement about `0 ≤ s.ip`. -/
theorem witness_ipAtSlotZero : 0 ≤ ({ st [] with ip := 0 } : State).ip := by decide

/-- Slot 3 of `prog` jumps below slot 0; slot 2 pushes on the full stack of capacity 0. -/
theorem witness_MachineFaultsHaveTheirTwoCauses :
    (step { prog with ip := 3 } =
      .next { prog with ip := -6, lic := .jump, fs := .fetchOutOfRange }) ∧
    (step { prog with ip := 2 } = .next { prog with ip := 2, fs := .stackOverflow }) := ⟨rfl, rfl⟩

theorem witness_MachineFaultIsSticky :
    ({ prog with ip := 2, fs := .stackOverflow } : State).fs ≠ .noFault := by decide

theorem witness_UnboundedStackNeverOverflows :
    Reaches (State.resetWith ⟨none, .equal⟩ prog.im)
      (afterStep (State.resetWith ⟨none, .equal⟩ prog.im)) := .step .refl rfl

/-- The invariant holds in a state from which a step is taken. -/
theorem witness_EveryStepKeepsTheInvariant : Inv prog ∧ step prog = .next (afterStep prog) :=
  ⟨{ ipLow := by decide
     ipHigh := by decide
     fetchFault := by decide
     fetchFaultJump := by decide
     stackFits := fun d _ => Nat.zero_le d
     overflowFull := by decide
     failureSlots := fun _ _ h => by cases h
     undispatched := fun _ => ⟨by decide, rfl, rfl, fun _ h => by cases h⟩ }, rfl⟩

theorem witness_LicValuesBesidesTwoAreEquivalent :
    prog.lic ≠ .comparison ∧ prog.lic ≠ .exit ∧ Category.data ≠ .comparison ∧
      Category.data ≠ .exit := by decide

theorem witness_OnlyFlagJumpsReadTheFlag :
    isFlagJump (.cmp (.ops (.two (c 1) (i 0)))) = false := by decide

/-- The widest well-formed operands. -/
theorem witness_DecodeOfEncode :
    (Instr.mov (.ops (.two (c (-2147483648)) (i 2147483647)))).wellFormed = true ∧
    (Instr.pfail .badIntegerLiteral).wellFormed = true := by decide

/-- Each clause, at the first and the last opcode number it covers. -/
theorem witness_IgnoredFieldsHaveNoEffect :
    (0#4 ∈ [0#4, 12#4, 13#4, 14#4] ∧ 14#4 ∈ [0#4, 12#4, 13#4, 14#4]) ∧ (15#4 = 15#4) ∧
    (0#2 ∈ [0#2, 3#2] ∧ 3#2 ∈ [0#2, 3#2] ∧ (1#4 : BitVec 4) ≠ 15#4) ∧
    ((1#2 : BitVec 2) = 1#2 ∧ (11#4 : BitVec 4) ≠ 15#4) := by decide

/-- Both ways to be blank: nothing but whitespace, and a comment. -/
theorem witness_BlankAndCommentLinesAreNone :
    (([] : Line) = [] ++ []) ∧ ([' ', ';', 'x'] = [' '] ++ [';', 'x']) ∧
    (∀ ch ∈ [' '], ch = ' ' ∨ ch = '\t') ∧ [';', 'x'].head? = some ';' :=
  ⟨rfl, rfl, by simp, rfl⟩

theorem witness_CommentsAreDiscarded : ';' ∉ "PUSH 2 ".toList := by decide

/-- Every kind of rest; a spelling of a table keyword, and a keyword that is none. -/
theorem witness_KeywordsIgnoreCaseAndComeFirst :
    ['m', 'o', 'v'] ≠ [] ∧ (∀ ch ∈ ['m', 'o', 'v'], ch ≠ ' ' ∧ ch ≠ '\t' ∧ ch ≠ ';') ∧
    (("MOV".toList, Opcode.mov) ∈ keywordTable ∧ CaseVariant ['m', 'o', 'v'] "MOV".toList) ∧
    (" M1,5".toList.head? = some ' ' ∧ "\t1".toList.head? = some '\t' ∧ ([] : Line) = []) ∧
    ['M', 'O', 'V', 'E'] ≠ [] ∧ (∀ ch ∈ ['M', 'O', 'V', 'E'], ch ≠ ' ' ∧ ch ≠ '\t' ∧ ch ≠ ';') ∧
    (∀ p ∈ keywordTable, ¬ CaseVariant ['M', 'O', 'V', 'E'] p.1) :=
  ⟨by decide, by simp, ⟨by decide, by simp [CaseVariant]⟩, by decide, by decide, by simp,
    by simp [keywordTable, CaseVariant]⟩

/-- The least number of commas. -/
theorem witness_ThreeTokensFail :
    ("PUSH".toList, Opcode.push) ∈ keywordTable ∧ ';' ∉ "1,2,3".toList ∧
      2 ≤ "1,2,3".toList.count ',' := by decide

/-- A token that reads as an operand, with whitespace around it. -/
theorem witness_ArgToken : ArgToken [' ', 'm', '8'] (c 8) ∧ ArgToken ['-', '7', ' '] (i (-7)) :=
  ⟨⟨by decide, by decide, by decide⟩, ⟨by decide, by decide, by decide⟩⟩

/-- Each clause: a blank remainder, one bad token, a bad token on the left and on the right. -/
theorem witness_FirstBadTokenIsReported :
    ("MOV".toList, Opcode.mov) ∈ keywordTable ∧ (∀ ch ∈ [' '], ch = ' ' ∨ ch = '\t') ∧
    (classify "M10".toList = .error .invalidMemoryLocation ∧
      ',' ∉ "M10".toList ∧ ';' ∉ "M10".toList ∧ ∃ ch ∈ ['M', '1', '0'], ch ≠ ' ' ∧ ch ≠ '\t') ∧
    (classify [] = .error .badIntegerLiteral ∧ ',' ∉ ([] : Line) ∧ ';' ∉ ([] : Line)) ∧
    ArgToken [' ', 'm', '8'] (c 8) :=
  ⟨by decide, by simp, ⟨by decide, by decide, by decide, 'M', by simp, by decide, by decide⟩,
    by decide, by decide, by decide, by decide⟩

theorem witness_WhitespaceAroundTokensIsIgnored :
    (∀ ch ∈ [' ', '\t'], ch = ' ' ∨ ch = '\t') ∧ (∀ ch ∈ ([] : Line), ch = ' ' ∨ ch = '\t') := by
  simp

/-- Each clause: the digits at both ends of the valid range, lengths 1 and 3. -/
theorem witness_MemoryTokensClassifyByLength :
    (('1' : Char) ≠ ' ' ∧ ('1' : Char) ≠ '\t' ∧ ('8' : Char) ≠ ' ') ∧
    (trim ('M' :: []) = 'M' :: [] ∧ ([] : Line).length ≠ 1) ∧
    (trim ('m' :: "10".toList) = 'm' :: "10".toList ∧ "10".toList.length ≠ 1) := by decide

/-- Both clauses: the ends of the 32-bit range are literals, the empty token is none. -/
theorem witness_LiteralsAreDecimalAndInRange :
    (trim "2147483647".toList = "2147483647".toList ∧
      classify "2147483647".toList = .ok (.integer 2147483647)) ∧
    (trim "-2147483648".toList = "-2147483648".toList ∧
      classify "-2147483648".toList = .ok (.integer (-2147483648))) ∧
    (trim [] = [] ∧ ([] : Line).head? ≠ some 'M' ∧ ([] : Line).head? ≠ some 'm' ∧
      ∀ v : Word, classify [] ≠ .ok (.integer v)) :=
  ⟨by decide, by decide, by decide, by decide, by decide, fun _ h => by cases h⟩

end Sys2Proof.Tests
end

/-! ## Proofs of the family `10_state.md`: the state after reset, what a step leaves unchanged, the
invariant of every run, and the parts of the state that the core does not read. -/

namespace Sys2Proof.Machine

/-! ### Invariants along a run -/

/-- What holds at the start of a run and is kept by every step holds in every state it reaches. -/
theorem reaches_invariant {P : State → Prop} {s t : State} (hreach : Reaches s t) (hstart : P s)
    (hstep : ∀ u v, P u → step u = .next v → P v) : P t := by
  induction hreach with
  | refl => exact hstart
  | step _ hnext ih => exact hstep _ _ ih hnext

/-! ### Frames: what one slot leaves unchanged -/

/-- A part `π` of the state that the step cycle never writes changes only by the effect of a
successful instruction. -/
theorem ExecCase.keeps {α : Type} (π : State → α) {i : Instr} {s t : State} (h : ExecCase i s t)
    (heffect : ∀ op o u d, i = op.instr (.ops o) → Effect s op o u d → π u = π s)
    (hlic : ∀ u c, π (u.setLic c) = π u := by intros; rfl)
    (hip : ∀ u x, π (u.setIp x) = π u := by intros; rfl)
    (hev : ∀ u e, π (u.emit e) = π u := by intros; rfl)
    (hfs : ∀ u f, π (u.machineFault f) = π u := by intros; rfl) :
    π t = π s := by
  have hfailure : ∀ u k, π (u.takeFailure k) = π u := fun u k => (hip _ _).trans (hev u _)
  cases h with
  | nop _ => exact hip s _
  | parseFail _ => exact hfailure s _
  | ok hi he => rw [applyDistance_eq, hip, hlic]; exact heffect _ _ _ _ hi he
  | fail _ _ _ => rw [hfailure, hlic]
  | overflow _ _ _ => exact hfs s _

theorem Effect.cells_eq {s t : State} {op : Opcode} {o : Operands} {d : Word}
    (h : Effect s op o t d) (hw : writesCells (op.instr (.ops o)) = false) :
    t.cells = s.cells := by
  cases h with
  | mov _ _ | pop _ _ => cases hw
  | _ => rfl

theorem Effect.stack_eq {s t : State} {op : Opcode} {o : Operands} {d : Word}
    (h : Effect s op o t d) (hu : usesStack (op.instr (.ops o)) = false) :
    t.stack = s.stack := by
  cases h with
  | add _ | mul _ | push _ _ | pop _ _ => cases hu
  | _ => rfl

theorem Effect.cr_eq {s t : State} {op : Opcode} {o : Operands} {d : Word}
    (h : Effect s op o t d) (hw : writesFlag (op.instr (.ops o)) = false) : t.cr = s.cr := by
  cases h with
  | cmp _ _ => cases hw
  | _ => rfl

/-- A success emits nothing, unless it is that of OUTPUT (R14, R76). -/
theorem Effect.ev_cases {s t : State} {op : Opcode} {o : Operands} {d : Word}
    (h : Effect s op o t d) :
    t.ev = s.ev ∨ ∃ v, op = .output ∧ t.ev = s.ev ++ [.output v] := by
  cases h with
  | output _ => exact .inr ⟨_, rfl, rfl⟩
  | _ => exact .inl rfl

theorem memRead_congr {s t : State} (h : t.cells = s.cells) (a : Word) :
    t.memRead a = s.memRead a := by
  simp only [State.memRead, State.cell, h]

theorem exec_cells_eq {i : Instr} {s t : State} (h : exec i s = .next t)
    (hw : writesCells i = false) : t.cells = s.cells :=
  (exec_cases h).keeps State.cells fun _ _ _ _ hi he => he.cells_eq (hi ▸ hw)

theorem exec_stack_eq {i : Instr} {s t : State} (h : exec i s = .next t)
    (hu : usesStack i = false) : t.stack = s.stack :=
  (exec_cases h).keeps State.stack fun _ _ _ _ hi he => he.stack_eq (hi ▸ hu)

theorem exec_cr_eq {i : Instr} {s t : State} (h : exec i s = .next t)
    (hw : writesFlag i = false) : t.cr = s.cr :=
  (exec_cases h).keeps State.cr fun _ _ _ _ hi he => he.cr_eq (hi ▸ hw)

/-- No slot writes the inputs of the run (R4, R12). -/
theorem exec_inputs_eq {i : Instr} {s t : State} (h : exec i s = .next t) :
    t.im = s.im ∧ t.params = s.params := by
  have hkeeps := (exec_cases h).keeps (fun u => (u.im, u.params)) fun _ _ _ _ _ he => by
    obtain ⟨_, _, _, him, hparams⟩ := he.frame
    exact Prod.ext him hparams
  exact Prod.ext_iff.1 hkeeps

theorem step_inputs_eq {s t : State} (h : step s = .next t) :
    t.im = s.im ∧ t.params = s.params := by
  obtain ⟨_, _, _, hexec⟩ := step_next h
  exact exec_inputs_eq hexec

/-- Settles O14: each field is one that only the effect of the named instructions writes. -/
theorem onlyTheNamedInstructionsWrite : Obligations.OnlyTheNamedInstructionsWrite := by
  intro i s t h
  exact ⟨fun hw a => memRead_congr (exec_cells_eq h hw) a, exec_stack_eq h, exec_cr_eq h,
    exec_inputs_eq h⟩

/-- Settles O3: no step writes the inputs of the run, so no run does. -/
theorem noStepWritesTheProgram : Obligations.NoStepWritesTheProgram := by
  intro s t hreach
  refine reaches_invariant (P := fun u => u.im = s.im ∧ u.params = s.params) hreach ⟨rfl, rfl⟩ ?_
  rintro u v ⟨him, hparams⟩ hnext
  obtain ⟨him', hparams'⟩ := step_inputs_eq hnext
  exact ⟨him'.trans him, hparams'.trans hparams⟩

/-- Settles O10: a success emits at most an `Output`, a failure its one report, and the advance and
StackOverflow emit nothing. -/
theorem atMostOneEventPerStep : Obligations.AtMostOneEventPerStep := by
  intro i s t h
  cases exec_cases h with
  | nop _ => exact .inl rfl
  | parseFail _ => exact .inr (.inr ⟨_, rfl⟩)
  | ok hi he =>
    rw [applyDistance_eq]
    rcases he.ev_cases with hsame | ⟨v, hop, hout⟩
    · exact .inl hsame
    · exact .inr (.inl ⟨v, _, by rw [hi, hop]; rfl, hout⟩)
  | fail _ _ _ => exact .inr (.inr ⟨_, rfl⟩)
  | overflow _ _ _ => exact .inl rfl

/-! ### Reset -/

/-- Settles O1, field by field. -/
theorem resetGivesTheTableOfR17 : Obligations.ResetGivesTheTableOfR17 := by
  rintro params im s rfl
  exact ⟨State.resetWith_cell params im, rfl, rfl, rfl, rfl, rfl, rfl, rfl, rfl⟩

/-- Settles O37: with `ip` 0, an empty stack, an empty trace and no fault, each field is closed by
the lemmas of the reset state. -/
theorem resetMeetsTheInvariant : Obligations.ResetMeetsTheInvariant := by
  intro params im
  exact
    { ipLow := by simp
      ipHigh := by simp; omega
      fetchFault := by simp
      fetchFaultJump := by simp
      stackFits := by simp [State.depth]
      overflowFull := by simp
      failureSlots := by simp
      undispatched := by simp }

/-! ### Machine faults -/

theorem fetch_of_fault {s : State} (h : s.fs ≠ .noFault) : ∃ f, s.fetch = .error f := by
  unfold State.fetch
  cases hfs : s.fs with
  | noFault => exact absurd hfs h
  | fetchOutOfRange => exact ⟨_, rfl⟩
  | stackOverflow => exact ⟨_, rfl⟩

/-- Settles O35: the fetch stops at the fault, so no step is there to leave the state. -/
theorem machineFaultIsSticky : Obligations.MachineFaultIsSticky := by
  intro s hfault
  obtain ⟨f, hfetch⟩ := fetch_of_fault hfault
  have hstop : step s = .fault f := step_of_stop hfetch
  refine ⟨⟨f, hstop⟩, if_pos hfault, fun t hreach => ?_⟩
  refine reaches_invariant (P := (· = s)) hreach rfl ?_
  rintro u v rfl hnext
  rw [hstop] at hnext
  cases hnext

/-! ### The invariant, operation by operation -/

theorem decodePFAIL_isParseStage (v2 : Word) : (decodePFAIL v2).isParseStage = true := by
  unfold decodePFAIL
  split <;> rfl

/-- The decoder makes only instructions that a word can hold (R47, R48). -/
theorem decode_wellFormed (w : InstrWord) : (decode w).wellFormed = true := by
  unfold decode
  dsimp only
  split
  case h_16 => exact decodePFAIL_isParseStage _
  all_goals rfl

theorem kind_of_operandField_record {args : OperandField} {op : Opcode} {k : FailureKind}
    (h : args.record op = .parseFail k) : k = .invalidNumberOfParams := by
  cases args with
  | ops _ => cases h
  | count3 => cases h; rfl

/-- A slot that is not dispatched fails with a kind of the parse stage (R41 c). -/
theorem isParseStage_of_record {i : Instr} {k : FailureKind} (hwf : i.wellFormed = true)
    (h : i.record = .parseFail k) : k.isParseStage = true := by
  cases i with
  | nop => cases h
  | reserved12 | reserved13 | reserved14 => cases h; rfl
  | pfail _ => cases h; exact hwf
  | _ => rw [kind_of_operandField_record h]; rfl

/-- Only a jump answers a distance other than 0 (R57). -/
theorem Effect.distance_eq_zero {s t : State} {op : Opcode} {o : Operands} {d : Word}
    (h : Effect s op o t d) (hop : category op ≠ .jump) : d = 0 := by
  cases h with
  | flagJump hj _ _ | valueJump hj _ _ => rcases hj with rfl | rfl | rfl <;> exact absurd rfl hop
  | _ => rfl

/-- No success takes a finite stack over its capacity: PUSH has room for one entry (R23), and the
others add none. -/
theorem Effect.stackFits {s t : State} {op : Opcode} {o : Operands} {d : Word}
    (h : Effect s op o t d) {n : Nat} (hn : s.params.stackDepth = some n) (hs : s.depth ≤ n) :
    t.depth ≤ n := by
  unfold State.depth at *
  cases h with
  | add hst | mul hst | pop _ hst => rw [hst] at hs; simp at hs ⊢; omega
  | push _ hroom =>
    have hne : n ≠ s.stack.length := fun e => hroom (by rw [hn, e]; rfl)
    simp; omega
  | _ => exact hs

/-- `ip` moves to a target in the range of R11, below 0 only after a jump (R59). -/
theorem Inv.setIp {s : State} {x : Int} (hs : Inv s) (hfs : s.fs = .noFault)
    (hlow : -2147483648 ≤ x) (hhigh : x ≤ (s.progLen : Int) - 1 + 2147483648)
    (hjump : x < 0 → s.lic = .jump) : Inv (s.setIp x) where
  ipLow := hlow
  ipHigh := hhigh
  fetchFault := by simp [hfs]
  fetchFaultJump := by simpa [hfs] using hjump
  stackFits := hs.stackFits
  overflowFull := by
    rw [State.setIp_fs, hfs]
    split <;> intro h <;> cases h
  failureSlots := hs.failureSlots
  undispatched := hs.undispatched

/-- The common advance, from a slot of the program. -/
theorem Inv.advance {s : State} (hs : Inv s) (hfs : s.fs = .noFault) (hip : 0 ≤ s.ip)
    (hlen : s.ip < s.progLen) : Inv s.advance :=
  hs.setIp hfs (by omega) (by omega) (by omega)

/-- A failure of a slot of the program, of the parse stage when nothing was dispatched yet. -/
theorem Inv.takeFailure {s : State} {k : FailureKind} (hs : Inv s) (hfs : s.fs = .noFault)
    (hip : 0 ≤ s.ip) (hlen : s.ip < s.progLen)
    (hk : s.lic = .none → k.isParseStage = true) : Inv (s.takeFailure k) := by
  have hemit : Inv (s.emit (.failure s.ip k)) :=
    { hs with
      failureSlots := fun i k' hmem => by
        rcases List.mem_append.1 hmem with hold | hnew
        · exact hs.failureSlots i k' hold
        · cases List.mem_singleton.1 hnew
          exact ⟨hip, hlen⟩
      undispatched := fun hlic => by
        obtain ⟨hcells, hstack, hcr, hev⟩ := hs.undispatched hlic
        refine ⟨hcells, hstack, hcr, fun e hmem => ?_⟩
        rcases List.mem_append.1 hmem with hold | hnew
        · exact hev e hold
        · exact ⟨s.ip, k, List.mem_singleton.1 hnew, hk hlic⟩ }
  exact hemit.advance hfs hip hlen

/-- After a dispatch `LIC` is not None, so nothing is claimed about cells, stack and flag. -/
theorem Inv.setLic {s : State} (hs : Inv s) (hfs : s.fs = .noFault) (op : Opcode) :
    Inv (s.setLic (category op)) :=
  { hs with
    fetchFaultJump := by simp [hfs]
    undispatched := fun hlic => absurd hlic (category_ne_none op) }

/-- The effect of a dispatched instruction, before `ip` moves. -/
theorem Inv.effect {s t : State} {op : Opcode} {o : Operands} {d : Word} (hs : Inv s)
    (hfs : s.fs = .noFault) (h : Effect s op o t d) : Inv (t.setLic (category op)) := by
  obtain ⟨hip, htfs, _, him, hparams⟩ := h.frame
  exact
    { ipLow := by simpa [hip] using hs.ipLow
      ipHigh := by simpa [State.progLen, hip, him] using hs.ipHigh
      fetchFault := by simpa [hip, htfs] using hs.fetchFault
      fetchFaultJump := by simp [htfs, hfs]
      stackFits := fun n hn => by
        have hn' : s.params.stackDepth = some n := hparams ▸ hn
        exact h.stackFits hn' (hs.stackFits n hn')
      overflowFull := by simp [htfs, hfs]
      failureSlots := fun i k hmem => by
        have hold : Event.failure i k ∈ s.ev := by
          rcases h.ev_cases with hev | ⟨v, _, hev⟩ <;> simpa [hev] using hmem
        simpa [State.progLen, him] using hs.failureSlots i k hold
      undispatched := fun hlic => absurd hlic (category_ne_none op) }

/-- StackOverflow on a full stack, in a slot of the program (R74, R88). -/
theorem Inv.stackOverflow {s : State} (hs : Inv s) (hip : 0 ≤ s.ip)
    (hfull : s.params.stackDepth = some s.depth) : Inv (s.machineFault .stackOverflow) :=
  { hs with
    fetchFault := by simpa using hip
    fetchFaultJump := by simp
    overflowFull := fun _ => hfull }

/-- A distance leads from a slot of the program into the range of R11. -/
theorem jumpTarget_mem_range {ip : Int} {n : Nat} (hip : 0 ≤ ip) (hlen : ip < n) (d : Word) :
    -2147483648 ≤ jumpTarget ip d ∧ jumpTarget ip d ≤ (n : Int) - 1 + 2147483648 := by
  have hlo : -2147483648 ≤ d.toInt := BitVec.le_toInt d
  have hhi : d.toInt < 2147483648 := BitVec.toInt_lt
  unfold jumpTarget
  split <;> omega

/-- Settles O38: each of the five things a slot can do is built of operations that keep the
invariant. -/
theorem everyStepKeepsTheInvariant : Obligations.EveryStepKeepsTheInvariant := by
  intro s t hs hstep
  obtain ⟨hrun, w, _, hexec⟩ := step_next hstep
  obtain ⟨hfs, hip, hlen, _⟩ := runCondition_iff.1 hrun
  cases exec_cases hexec with
  | nop _ => exact hs.advance hfs hip hlen
  | parseFail hrec =>
    exact hs.takeFailure hfs hip hlen fun _ => isParseStage_of_record (decode_wellFormed w) hrec
  | @ok op o u d _ he =>
    obtain ⟨huip, hufs, _, huim, _⟩ := he.frame
    obtain ⟨hlow, hhigh⟩ := jumpTarget_mem_range hip hlen d
    rw [applyDistance_eq]
    refine (hs.effect hfs he).setIp (hufs.trans hfs) ?_ ?_ fun hneg => ?_
    · simpa [huip] using hlow
    · simpa [huip, State.progLen, huim] using hhigh
    · by_contra hnojump
      rw [he.distance_eq_zero hnojump, State.setLic_ip, huip, jumpTarget_zero] at hneg
      omega
  | @fail op _ _ _ _ _ =>
    exact (hs.setLic hfs op).takeFailure hfs hip hlen fun h => absurd h (category_ne_none op)
  | overflow _ _ hfull => exact hs.stackOverflow hip hfull

end Sys2Proof.Machine

/-! ## What the core does not read: `LIC` beyond two of its values, the trace, and the flag

Two runs from states that differ only in a part that no instruction reads stay alike. `Congruent`
says what a relation between states has to meet for that; each claim is one such relation. -/

namespace Sys2Proof.Machine

/-- A relation whose states have the same inputs, cells, stack, `ip` and fault status, and which
every writer of the state keeps. -/
structure Congruent (R : State → State → Prop) : Prop where
  params_eq : ∀ {s u}, R s u → u.params = s.params
  im_eq : ∀ {s u}, R s u → u.im = s.im
  cells_eq : ∀ {s u}, R s u → u.cells = s.cells
  stack_eq : ∀ {s u}, R s u → u.stack = s.stack
  ip_eq : ∀ {s u}, R s u → u.ip = s.ip
  fs_eq : ∀ {s u}, R s u → u.fs = s.fs
  setCell : ∀ {s u}, R s u → ∀ i v, R (s.setCell i v) (u.setCell i v)
  setStack : ∀ {s u}, R s u → ∀ st, R (s.setStack st) (u.setStack st)
  setLic : ∀ {s u}, R s u → ∀ c, R (s.setLic c) (u.setLic c)
  setCr : ∀ {s u}, R s u → ∀ r, R (s.setCr r) (u.setCr r)
  emit : ∀ {s u}, R s u → ∀ e, R (s.emit e) (u.emit e)
  setIp : ∀ {s u}, R s u → ∀ x, R (s.setIp x) (u.setIp x)
  machineFault : ∀ {s u}, R s u → ∀ f, R (s.machineFault f) (u.machineFault f)

/-- Answers of `execute` alike: the same distance, failure kind or fault, and related states. -/
inductive SameAnswer (R : State → State → Prop) : Result → Result → Prop where
  | ok {t v : State} (d : Word) : R t v → SameAnswer R (.ok t d) (.ok v d)
  | fail (k : FailureKind) : SameAnswer R (.fail k) (.fail k)
  | machineFault (f : FaultStatus) : SameAnswer R (.machineFault f) (.machineFault f)

/-- What the 1-operand jumps read (R9, R10) is the same in two states. -/
def SameFlagReads (s u : State) : Prop :=
  (u.lic = .comparison ↔ s.lic = .comparison) ∧ u.cr = s.cr

section
variable {R : State → State → Prop} {s u : State}

theorem Congruent.memRead_eq (hR : Congruent R) (h : R s u) (a : Word) :
    u.memRead a = s.memRead a :=
  memRead_congr (hR.cells_eq h) a

theorem Congruent.resolve_eq (hR : Congruent R) (h : R s u) (o : Operand) :
    u.resolve o = s.resolve o := by
  cases o with
  | memoryLocation a => exact hR.memRead_eq h a
  | integer _ => rfl

theorem Congruent.memWrite_sameAnswer (hR : Congruent R) (h : R s u) (a v : Word) :
    SameAnswer R (Result.ofExcept (s.memWrite a v)) (Result.ofExcept (u.memWrite a v)) := by
  unfold State.memWrite
  cases cellIndex a with
  | none => exact .fail _
  | some i => exact .ok _ (hR.setCell h i v)

theorem Congruent.stackFull_eq (hR : Congruent R) (h : R s u) : u.stackFull = s.stackFull := by
  rw [Bool.eq_iff_iff, stackFull_iff, stackFull_iff, State.depth, State.depth, hR.params_eq h,
    hR.stack_eq h]

theorem Congruent.push_sameAnswer (hR : Congruent R) (h : R s u) (v : Word) :
    SameAnswer R (s.push v) (u.push v) := by
  unfold State.push State.pushRaw
  rw [hR.stackFull_eq h, hR.stack_eq h]
  split
  · exact .machineFault _
  · exact .ok _ (hR.setStack h _)

theorem Congruent.binaryOnStack_sameAnswer (hR : Congruent R) (h : R s u) (f : Word → Word → Word)
    (o : Operands) : SameAnswer R (binaryOnStack f o s) (binaryOnStack f o u) := by
  cases o with
  | zero =>
    simp only [binaryOnStack, hR.stack_eq h]
    split
    · exact .ok _ (hR.setStack h _)
    · exact .fail _
  | one _ | two _ _ => exact .fail _

theorem Congruent.executeMov_sameAnswer (hR : Congruent R) (h : R s u) (o : Operands) :
    SameAnswer R (executeMov o s) (executeMov o u) := by
  match o with
  | .zero | .one _ | .two (.integer _) _ => exact .fail _
  | .two (.memoryLocation n) src =>
    simp only [executeMov, hR.resolve_eq h]
    split
    · split
      · exact hR.memWrite_sameAnswer h _ _
      · exact .fail _
    · exact .fail _

theorem Congruent.executePush_sameAnswer (hR : Congruent R) (h : R s u) (o : Operands) :
    SameAnswer R (executePush o s) (executePush o u) := by
  cases o with
  | one o1 =>
    simp only [executePush, hR.resolve_eq h]
    split
    · exact .fail _
    · exact hR.push_sameAnswer h _
  | zero | two _ _ => exact .fail _

theorem Congruent.executePop_sameAnswer (hR : Congruent R) (h : R s u) (o : Operands) :
    SameAnswer R (executePop o s) (executePop o u) := by
  match o with
  | .zero | .two _ _ | .one (.integer _) => exact .fail _
  | .one (.memoryLocation n) =>
    simp only [executePop, State.pop, hR.stack_eq h]
    cases s.stack with
    | nil => exact .fail _
    | cons v rest =>
      dsimp only
      split
      · exact hR.memWrite_sameAnswer (hR.setStack h rest) n v
      · exact .fail _

theorem Congruent.executeCmp_sameAnswer (hR : Congruent R) (h : R s u) (o : Operands) :
    SameAnswer R (executeCmp o s) (executeCmp o u) := by
  cases o with
  | two o1 o2 =>
    simp only [executeCmp, hR.resolve_eq h]
    split
    · exact .fail _
    · split
      · exact .fail _
      · exact .ok _ (hR.setCr h _)
  | zero | one _ => exact .fail _

theorem Congruent.executeOutput_sameAnswer (hR : Congruent R) (h : R s u) (o : Operands) :
    SameAnswer R (executeOutput o s) (executeOutput o u) := by
  cases o with
  | one o1 =>
    simp only [executeOutput, hR.resolve_eq h]
    split
    · exact .fail _
    · exact .ok _ (hR.emit h _)
  | zero | two _ _ => exact .fail _

/-- The 2-operand form reads cells only; the 1-operand form reads `LIC` and `CR` (R70). -/
theorem Congruent.executeJump_sameAnswer (hR : Congruent R) (h : R s u) (condCR : CmpResult → Bool)
    (condV : Word → Bool) (o : Operands) (hreads : (∃ o1, o = .one o1) → SameFlagReads s u) :
    SameAnswer R (executeJump condCR condV o s) (executeJump condCR condV o u) := by
  match o with
  | .zero | .two _ (.memoryLocation _) => exact .fail _
  | .two o1 (.integer d) =>
    simp only [executeJump, hR.resolve_eq h]
    split
    · exact .fail _
    · exact .ok _ h
  | .one o1 =>
    obtain ⟨hlic, hcr⟩ := hreads ⟨o1, rfl⟩
    simp only [executeJump, ne_eq, hlic, hcr]
    split
    · exact .fail _
    · cases o1 with
      | memoryLocation _ => exact .fail _
      | integer d => exact .ok _ h

/-- Nothing but a 1-operand jump can tell related states apart. -/
theorem Congruent.execute_sameAnswer (hR : Congruent R) (h : R s u) (op : Opcode) (o : Operands)
    (hreads : isFlagJump (op.instr (.ops o)) = true → SameFlagReads s u) :
    SameAnswer R (execute op o s) (execute op o u) := by
  cases op with
  | add => exact hR.binaryOnStack_sameAnswer h addW o
  | mul => exact hR.binaryOnStack_sameAnswer h mulW o
  | mov => exact hR.executeMov_sameAnswer h o
  | push => exact hR.executePush_sameAnswer h o
  | pop => exact hR.executePop_sameAnswer h o
  | cmp => exact hR.executeCmp_sameAnswer h o
  | output => exact hR.executeOutput_sameAnswer h o
  | exit => exact .ok _ h
  | jz | jnz | jpos =>
    refine hR.executeJump_sameAnswer h _ _ o ?_
    rintro ⟨o1, rfl⟩
    exact hreads rfl

theorem Congruent.advance_related (hR : Congruent R) (h : R s u) : R s.advance u.advance := by
  unfold State.advance
  rw [hR.ip_eq h]
  exact hR.setIp h _

theorem Congruent.takeFailure_related (hR : Congruent R) (h : R s u) (k : FailureKind) :
    R (s.takeFailure k) (u.takeFailure k) := by
  unfold State.takeFailure
  rw [hR.ip_eq h]
  exact hR.advance_related (hR.emit h _)

theorem Congruent.finish_related (hR : Congruent R) (h : R s u) (c : Category) {r r' : Result}
    (hr : SameAnswer R r r') : R (s.finish c r) (u.finish c r') := by
  cases hr with
  | fail k => exact hR.takeFailure_related (hR.setLic h c) k
  | machineFault f => exact hR.machineFault h f
  | ok d ht =>
    have hlic := hR.setLic ht c
    simp only [State.finish, applyDistance_eq, hR.ip_eq hlic]
    exact hR.setIp hlic _

theorem Congruent.exec_related (hR : Congruent R) (h : R s u) (i : Instr)
    (hreads : isFlagJump i = true → SameFlagReads s u) :
    ∃ t v, exec i s = .next t ∧ exec i u = .next v ∧ R t v := by
  rcases instr_cases i with rfl | ⟨k, -, hfail⟩ | ⟨op, o, rfl⟩
  · exact ⟨_, _, rfl, rfl, hR.advance_related h⟩
  · exact ⟨_, _, hfail s, hfail u, hR.takeFailure_related h k⟩
  · exact ⟨_, _, exec_opcode op (.ops o) s, exec_opcode op (.ops o) u,
      hR.finish_related h _ (hR.execute_sameAnswer h op o hreads)⟩

/-- The fetch reads of `LIC` only whether it is Exit (R51). -/
theorem Congruent.fetch_eq (hR : Congruent R) (h : R s u) (hexit : u.lic = .exit ↔ s.lic = .exit) :
    u.fetch = s.fetch := by
  simp only [State.fetch, hR.fs_eq h, hR.ip_eq h, hR.im_eq h, hexit]

/-- How the run stands depends on `LIC` only by whether it is Exit (R64). -/
theorem Congruent.status_eq (hR : Congruent R) (h : R s u)
    (hexit : u.lic = .exit ↔ s.lic = .exit) : u.status = s.status := by
  unfold State.status State.progLen
  rw [hR.ip_eq h, hR.im_eq h]
  exact if_congr (by rw [hR.fs_eq h]) rfl (if_congr hexit rfl rfl)

/-- Related states in which `LIC` and `CR` read the same take related steps, or stop alike. -/
theorem Congruent.step_related (hR : Congruent R) (h : R s u) (hreads : SameFlagReads s u)
    (hexit : u.lic = .exit ↔ s.lic = .exit) :
    (∃ t v, step s = .next t ∧ step u = .next v ∧ R t v) ∨
      ∃ f, step s = .fault f ∧ step u = .fault f := by
  have hfetch := hR.fetch_eq h hexit
  rcases hs : s.fetch with f | w
  · exact .inr ⟨f, step_of_stop hs, step_of_stop (hfetch.trans hs)⟩
  · rw [step_of_fetch hs, step_of_fetch (hfetch.trans hs)]
    exact .inl (hR.exec_related h _ fun _ => hreads)

theorem Congruent.runFor_related (hR : Congruent R) (hreads : ∀ {s u}, R s u → SameFlagReads s u)
    (hexit : ∀ {s u}, R s u → (u.lic = .exit ↔ s.lic = .exit)) (k : Nat) (h : R s u) :
    R (runFor k s) (runFor k u) := by
  induction k generalizing s u with
  | zero => exact h
  | succ k ih =>
    unfold runFor
    rcases hR.step_related h (hreads h) (hexit h) with ⟨t, v, hs, hu, htv⟩ | ⟨f, hs, hu⟩
    · rw [hs, hu]; exact ih htv
    · rw [hs, hu]; exact h

end

/-! ### The three relations -/

/-- A value of `LIC` that neither a jump nor the run condition asks for (R9). -/
def Category.Unread (c : Category) : Prop := c ≠ .comparison ∧ c ≠ .exit

/-- States alike but for `LIC`, which differs only between unread values. -/
def SameButLic (s u : State) : Prop :=
  ∃ c, u = { s with lic := c } ∧ (c = s.lic ∨ s.lic.Unread ∧ c.Unread)

/-- The second state is the first with the events `es` before its trace. -/
def SameAfterTrace (es : List Event) (s u : State) : Prop := u = { s with ev := es ++ s.ev }

/-- States alike but for the flag, which is `a` in one and `b` in the other, or the same. -/
def SameButFlag (a b : CmpResult) (s u : State) : Prop :=
  ∃ c, u = { s with cr := c } ∧ (s.cr = a ∧ c = b ∨ s.cr = c)

theorem sameButLic_congruent : Congruent SameButLic where
  params_eq := by rintro s u ⟨c, rfl, -⟩; rfl
  im_eq := by rintro s u ⟨c, rfl, -⟩; rfl
  cells_eq := by rintro s u ⟨c, rfl, -⟩; rfl
  stack_eq := by rintro s u ⟨c, rfl, -⟩; rfl
  ip_eq := by rintro s u ⟨c, rfl, -⟩; rfl
  fs_eq := by rintro s u ⟨c, rfl, -⟩; rfl
  setCell := by rintro s u ⟨c, rfl, hc⟩ i v; exact ⟨c, rfl, hc⟩
  setStack := by rintro s u ⟨c, rfl, hc⟩ st; exact ⟨c, rfl, hc⟩
  setLic := by rintro s u ⟨c, rfl, -⟩ c'; exact ⟨c', rfl, .inl rfl⟩
  setCr := by rintro s u ⟨c, rfl, hc⟩ r; exact ⟨c, rfl, hc⟩
  emit := by rintro s u ⟨c, rfl, hc⟩ e; exact ⟨c, rfl, hc⟩
  setIp := by rintro s u ⟨c, rfl, hc⟩ x; exact ⟨c, rfl, hc⟩
  machineFault := by rintro s u ⟨c, rfl, hc⟩ f; exact ⟨c, rfl, hc⟩

theorem sameAfterTrace_congruent (es : List Event) : Congruent (SameAfterTrace es) where
  params_eq := by rintro s u rfl; rfl
  im_eq := by rintro s u rfl; rfl
  cells_eq := by rintro s u rfl; rfl
  stack_eq := by rintro s u rfl; rfl
  ip_eq := by rintro s u rfl; rfl
  fs_eq := by rintro s u rfl; rfl
  setCell := by rintro s u rfl i v; rfl
  setStack := by rintro s u rfl st; rfl
  setLic := by rintro s u rfl c; rfl
  setCr := by rintro s u rfl r; rfl
  emit := by rintro s u rfl e; simp [SameAfterTrace, State.emit]
  setIp := by rintro s u rfl x; rfl
  machineFault := by rintro s u rfl f; rfl

theorem sameButFlag_congruent (a b : CmpResult) : Congruent (SameButFlag a b) where
  params_eq := by rintro s u ⟨c, rfl, -⟩; rfl
  im_eq := by rintro s u ⟨c, rfl, -⟩; rfl
  cells_eq := by rintro s u ⟨c, rfl, -⟩; rfl
  stack_eq := by rintro s u ⟨c, rfl, -⟩; rfl
  ip_eq := by rintro s u ⟨c, rfl, -⟩; rfl
  fs_eq := by rintro s u ⟨c, rfl, -⟩; rfl
  setCell := by rintro s u ⟨c, rfl, hc⟩ i v; exact ⟨c, rfl, hc⟩
  setStack := by rintro s u ⟨c, rfl, hc⟩ st; exact ⟨c, rfl, hc⟩
  setLic := by rintro s u ⟨c, rfl, hc⟩ c'; exact ⟨c, rfl, hc⟩
  setCr := by rintro s u ⟨c, rfl, -⟩ r; exact ⟨r, rfl, .inr rfl⟩
  emit := by rintro s u ⟨c, rfl, hc⟩ e; exact ⟨c, rfl, hc⟩
  setIp := by rintro s u ⟨c, rfl, hc⟩ x; exact ⟨c, rfl, hc⟩
  machineFault := by rintro s u ⟨c, rfl, hc⟩ f; exact ⟨c, rfl, hc⟩

theorem SameButLic.flagReads {s u : State} (h : SameButLic s u) : SameFlagReads s u := by
  obtain ⟨c, rfl, rfl | ⟨⟨hs, _⟩, hc, _⟩⟩ := h
  · exact ⟨Iff.rfl, rfl⟩
  · exact ⟨iff_of_false hc hs, rfl⟩

theorem SameButLic.exit_iff {s u : State} (h : SameButLic s u) :
    u.lic = .exit ↔ s.lic = .exit := by
  obtain ⟨c, rfl, rfl | ⟨⟨_, hs⟩, _, hc⟩⟩ := h
  · exact Iff.rfl
  · exact iff_of_false hc hs

/-- Settles O39: the states of the two runs stay alike but for `LIC`. -/
theorem licValuesBesidesTwoAreEquivalent : Obligations.LicValuesBesidesTwoAreEquivalent := by
  intro k s c hscmp hsexit hccmp hcexit
  have hstart : SameButLic s { s with lic := c } :=
    ⟨c, rfl, .inr ⟨⟨hscmp, hsexit⟩, hccmp, hcexit⟩⟩
  have hend := sameButLic_congruent.runFor_related SameButLic.flagReads SameButLic.exit_iff k hstart
  refine ⟨?_, sameButLic_congruent.status_eq hend hend.exit_iff⟩
  obtain ⟨c', hrun, -⟩ := hend
  rw [hrun]

/-- Settles O40: the second run stays the first with the same events before its trace. -/
theorem traceIsNeverRead : Obligations.TraceIsNeverRead := by
  intro k s es
  refine (sameAfterTrace_congruent es).runFor_related ?_ ?_ k (rfl : SameAfterTrace es s _)
  · rintro s u rfl; exact ⟨Iff.rfl, rfl⟩
  · rintro s u rfl; exact Iff.rfl

/-- Settles O41: without a 1-operand jump the two states stay alike but for the flag. -/
theorem onlyFlagJumpsReadTheFlag : Obligations.OnlyFlagJumpsReadTheFlag := by
  intro i s c hjump
  have hstart : SameButFlag s.cr c s { s with cr := c } := ⟨c, rfl, .inl ⟨rfl, rfl⟩⟩
  obtain ⟨t, u, ht, hu, c', rfl, hflag⟩ :=
    (sameButFlag_congruent s.cr c).exec_related hstart i fun h => by rw [hjump] at h; cases h
  exact ⟨t, _, ht, hu, rfl, hflag⟩

end Sys2Proof.Machine

/-! ## Proofs of the family `20_memory.md`: cell reads after a write, the one address a store can
reach, and the stack without a capacity. -/

namespace Sys2Proof.Machine

/-! ### A cell read after a cell write (R20 to R22) -/

theorem memRead_setCell_same {s : State} {a v : Word} {i : Fin Config.numCells}
    (ha : cellIndex a = some i) : (s.setCell i v).memRead a = .ok v := by
  simp [State.memRead, ha]

/-- Two addresses never name one cell, so a write is seen at its own address only. -/
theorem memRead_setCell_ne {s : State} {a b v : Word} {i : Fin Config.numCells}
    (ha : cellIndex a = some i) (hb : b ≠ a) : (s.setCell i v).memRead b = s.memRead b := by
  unfold State.memRead
  cases hj : cellIndex b with
  | none => rfl
  | some j =>
    have hij : i ≠ j := fun e => hb (cellIndex_inj hj (e ▸ ha))
    simp only [State.setCell_cell_ne s i j v hij]

/-- Settles O16: an address names a cell or it does not, and the write and the read agree on
which. -/
theorem cellReadAfterWrite : Obligations.CellReadAfterWrite := by
  intro s a v
  rcases memWrite_cases s a v with ⟨i, hi, hwrite⟩ | ⟨hnone, hwrite⟩
  · refine ⟨fun _ => ⟨_, hwrite, memRead_setCell_same hi, fun b => memRead_setCell_ne hi, rfl⟩,
      fun hout => ?_⟩
    rw [cellIndex_eq_none.2 hout] at hi
    cases hi
  · have hout := cellIndex_eq_none.1 hnone
    refine ⟨fun hin => by omega, fun _ => ⟨hwrite, ?_⟩⟩
    simp [State.memRead, hnone]

/-! ### The one address a store can reach (R22, R68, R75) -/

/-- The address that the success of an instruction stores to: the destination operand of a MOV or a
POP. -/
def storeAddress : Instr → Option Word
  | .mov (.ops (.two (.memoryLocation n) _)) => some n
  | .pop (.ops (.one (.memoryLocation n))) => some n
  | _ => none

theorem Effect.memRead_eq {s t : State} {op : Opcode} {o : Operands} {d a : Word}
    (h : Effect s op o t d) (ha : storeAddress (op.instr (.ops o)) ≠ some a) :
    t.memRead a = s.memRead a := by
  cases h with
  | mov hn _ => exact memRead_setCell_ne hn fun e => ha (congrArg some e.symm)
  | @pop n v i rest hn _ =>
    calc ((s.setStack rest).setCell i v).memRead a
        = (s.setStack rest).memRead a := memRead_setCell_ne hn fun e => ha (congrArg some e.symm)
      _ = s.memRead a := memRead_congr rfl a
  | _ => exact memRead_congr rfl a

/-- Every address reads as before the slot ran, but the one that it stores to. -/
theorem exec_memRead_eq {i : Instr} {s t : State} {a : Word} (h : exec i s = .next t)
    (ha : storeAddress i ≠ some a) : t.memRead a = s.memRead a :=
  (exec_cases h).keeps (State.memRead · a) fun _ _ _ _ hi he => he.memRead_eq (hi ▸ ha)

/-- Settles O15: `n` is the store address of both instructions, MOV uses neither the stack nor the
flag, and POP does not use the flag. -/
theorem storesReachOnlyTheDestination : Obligations.StoresReachOnlyTheDestination := by
  intro n src s t
  have hother : ∀ a, a ≠ n → some n ≠ some a := fun a ha e => ha (Option.some.inj e).symm
  constructor
  · intro h
    exact ⟨fun a ha => exec_memRead_eq h (hother a ha), exec_stack_eq h rfl, exec_cr_eq h rfl⟩
  · intro h
    exact ⟨fun a ha => exec_memRead_eq h (hother a ha), exec_cr_eq h rfl⟩

/-! ### The stack without a capacity (R23) -/

/-- The invariant of every run holds in every state reached from reset. -/
theorem reaches_resetWith_inv {params : Params} {im : List InstrWord} {t : State}
    (h : Reaches (State.resetWith params im) t) : Inv t :=
  reaches_invariant h (resetMeetsTheInvariant params im) everyStepKeepsTheInvariant

/-- Settles O36: StackOverflow needs a capacity that is reached, and no step gives the unbounded
stack one. -/
theorem unboundedStackNeverOverflows : Obligations.UnboundedStackNeverOverflows := by
  intro im crReset t hreach hoverflow
  have hfull : t.params.stackDepth = some t.depth :=
    (reaches_resetWith_inv hreach).overflowFull hoverflow
  obtain ⟨_, hparams⟩ := noStepWritesTheProgram _ _ hreach
  rw [hparams] at hfull
  cases hfull

end Sys2Proof.Machine

/-! ## Proofs of the family `30_encoding.md`, the word: the decoder on the fields of a word, the
round trip through the encoder, and the assembled line. -/

namespace Sys2Proof.Machine

/-! ### The decoder, one equation for each group of opcode numbers (R45, R47) -/

theorem decode_opcode {w : InstrWord} {op : Opcode}
    (h : opcodeOfNumber (Fields.ofWord w).opc.toNat = some op) :
    decode w = op.instr (Fields.ofWord w).operandField := by
  unfold decode
  dsimp only
  generalize (Fields.ofWord w).opc.toNat = n at h
  unfold opcodeOfNumber at h
  split at h <;> cases h <;> rfl

theorem decode_none {w : InstrWord} (h : (Fields.ofWord w).opc = 0#4) : decode w = .nop := by
  simp [decode, h]

theorem decode_reserved12 {w : InstrWord} (h : (Fields.ofWord w).opc = 12#4) :
    decode w = .reserved12 := by
  simp [decode, h]

theorem decode_reserved13 {w : InstrWord} (h : (Fields.ofWord w).opc = 13#4) :
    decode w = .reserved13 := by
  simp [decode, h]

theorem decode_reserved14 {w : InstrWord} (h : (Fields.ofWord w).opc = 14#4) :
    decode w = .reserved14 := by
  simp [decode, h]

theorem decode_pfail {w : InstrWord} (h : (Fields.ofWord w).opc = 15#4) :
    decode w = .pfail (decodePFAIL (Fields.ofWord w).v2) := by
  simp [decode, h]

/-- The table of R45: the sixteen opcode numbers in their groups. -/
theorem opc_cases (opc : BitVec 4) :
    opc = 0#4 ∨ (∃ op, opcodeOfNumber opc.toNat = some op) ∨
      (opc = 12#4 ∨ opc = 13#4 ∨ opc = 14#4) ∨ opc = 15#4 := by
  simp only [← Option.isSome_iff_exists]
  revert opc
  decide

/-! ### Encoding, then decoding (R44 to R50) -/

theorem decode_encodeArgs {opc : BitVec 4} {op : Opcode}
    (h : opcodeOfNumber opc.toNat = some op) (args : OperandField) :
    decode (encodeArgs opc args) = op.instr args := by
  rw [decode_opcode (op := op) (by rw [encodeArgs_opc, h]), encodeArgs_operandField]

theorem opcodeOfNumber_opcodeNumber (op : Opcode) (args : OperandField) :
    opcodeOfNumber (op.instr args).opcodeNumber.toNat = some op := by
  cases op <;> rfl

theorem encode_opcode (op : Opcode) (args : OperandField) :
    encode (op.instr args) = encodeArgs (op.instr args).opcodeNumber args := by
  cases op <;> rfl

theorem decode_encode_opcode (op : Opcode) (args : OperandField) :
    decode (encode (op.instr args)) = op.instr args := by
  rw [encode_opcode, decode_encodeArgs (opcodeOfNumber_opcodeNumber op args)]

/-- Settles O42: an opcode's number and operand field are read back from its word, and a PFAIL word
carries the code of a parse-stage kind, which R48 reads back. -/
theorem decodeOfEncode : Obligations.DecodeOfEncode := by
  intro i hwf
  cases i with
  | nop => exact decode_none Laws.EncodeOpcode.nop
  | reserved12 => exact decode_reserved12 Laws.EncodeOpcode.reserved12
  | reserved13 => exact decode_reserved13 Laws.EncodeOpcode.reserved13
  | reserved14 => exact decode_reserved14 Laws.EncodeOpcode.reserved14
  | pfail k =>
    have hv2 : (Fields.ofWord (encode (.pfail k))).v2 = BitVec.ofNat 32 k.code := by
      simp only [encode, ofWord_toWord]
    rw [decode_pfail (Laws.EncodeOpcode.pfail k), hv2, decodePFAIL_code hwf]
  | add args => exact decode_encode_opcode .add args
  | mul args => exact decode_encode_opcode .mul args
  | mov args => exact decode_encode_opcode .mov args
  | push args => exact decode_encode_opcode .push args
  | pop args => exact decode_encode_opcode .pop args
  | cmp args => exact decode_encode_opcode .cmp args
  | jz args => exact decode_encode_opcode .jz args
  | jnz args => exact decode_encode_opcode .jnz args
  | jpos args => exact decode_encode_opcode .jpos args
  | output args => exact decode_encode_opcode .output args
  | exit args => exact decode_encode_opcode .exit args

/-- Settles O43: the one instruction with a condition is PFAIL, whose kind R48 makes a parse-stage
kind. -/
theorem everyWordIsAWellFormedInstruction : Obligations.EveryWordIsAWellFormedInstruction :=
  decode_wellFormed

/-! ### The decoder against R47's pseudocode -/

/-- R47's `opc` is the field `opc`. -/
theorem shiftRight_toNat_eq_opc (w : InstrWord) :
    (w >>> 68).toNat = (Fields.ofWord w).opc.toNat := by
  simp only [Fields.ofWord, BitVec.extractLsb'_toNat, BitVec.toNat_ushiftRight]
  have hlt : w.toNat < 2 ^ 72 := w.isLt
  omega

/-- R47's `cnt` is the field `cnt`. -/
theorem shiftRight_mod_eq_cnt (w : InstrWord) :
    (w >>> 66).toNat % 4 = (Fields.ofWord w).cnt.toNat := by
  simp [Fields.ofWord]

theorem truncate_eq_v2 (w : InstrWord) : w.truncate 32 = (Fields.ofWord w).v2 := by
  apply BitVec.eq_of_toNat_eq
  simp [Fields.ofWord]

/-- R47's choice of the tag by a bit of the word is the choice by the field of that bit. -/
theorem decodeOperand_extractLsb' (w : InstrWord) (j : Nat) (v : Word) :
    decodeOperand (w.extractLsb' j 1) v =
      if w.getLsbD j then .memoryLocation v else .integer v := by
  simp only [decodeOperand, BitVec.getLsbD_eq_extractLsb', beq_iff_eq]

/-- For a number of the opcode table R47's pseudocode makes the record of the operand field. -/
theorem decodeRecord_opcode {w : InstrWord} {op : Opcode}
    (h : opcodeOfNumber (Fields.ofWord w).opc.toNat = some op) :
    decodeRecord w = (Fields.ofWord w).operandField.record op := by
  have h0 : (Fields.ofWord w).opc.toNat ≠ 0 := fun e => by rw [e] at h; cases h
  have h15 : (Fields.ofWord w).opc.toNat ≠ 15 := fun e => by rw [e] at h; cases h
  have hcnt : (Fields.ofWord w).cnt.toNat < 4 := (Fields.ofWord w).cnt.isLt
  have ht1 := decodeOperand_extractLsb' w 65
  have ht2 := decodeOperand_extractLsb' w 64
  unfold decodeRecord Fields.operandField
  simp only [shiftRight_toNat_eq_opc, shiftRight_mod_eq_cnt, truncate_eq_v2,
    ← ht1, ← ht2, h0, h15, h, if_false]
  generalize (Fields.ofWord w).cnt.toNat = n at hcnt
  match n, hcnt with
  | 0, _ | 1, _ | 2, _ | 3, _ => rfl

/-- Settles O44, group of opcode numbers by group. -/
theorem decoderFollowsThePseudocode : Obligations.DecoderFollowsThePseudocode := by
  intro w
  have hopc := shiftRight_toNat_eq_opc w
  rcases opc_cases (Fields.ofWord w).opc with h | ⟨op, h⟩ | (h | h | h) | h
  · rw [decode_none h]
    simp [decodeRecord, hopc, h, Instr.record]
  · rw [decode_opcode h, record_opcode, decodeRecord_opcode h]
  · rw [decode_reserved12 h]
    simp [decodeRecord, hopc, h, Instr.record, opcodeOfNumber]
  · rw [decode_reserved13 h]
    simp [decodeRecord, hopc, h, Instr.record, opcodeOfNumber]
  · rw [decode_reserved14 h]
    simp [decodeRecord, hopc, h, Instr.record, opcodeOfNumber]
  · rw [decode_pfail h, ← truncate_eq_v2]
    simp [decodeRecord, hopc, h, Instr.record]

/-! ### Fields that the decoder ignores (R49 d) -/

/-- All that the decoder reads of a word: the opcode number, the operand field for a number of the
opcode table, and `v2` for PFAIL. -/
theorem decode_congr {f g : Fields} (hopc : f.opc = g.opc)
    (hargs : ∀ op, opcodeOfNumber f.opc.toNat = some op → f.operandField = g.operandField)
    (hv2 : f.opc = 15#4 → f.v2 = g.v2) : decode f.toWord = decode g.toWord := by
  have hf := ofWord_toWord f
  have hg := ofWord_toWord g
  rcases opc_cases f.opc with h | ⟨op, h⟩ | (h | h | h) | h
  · rw [decode_none (by rw [hf, h]), decode_none (by rw [hg, ← hopc, h])]
  · rw [decode_opcode (op := op) (by rw [hf, h]), decode_opcode (op := op) (by rw [hg, ← hopc, h]),
      hf, hg, hargs op h]
  · rw [decode_reserved12 (by rw [hf, h]), decode_reserved12 (by rw [hg, ← hopc, h])]
  · rw [decode_reserved13 (by rw [hf, h]), decode_reserved13 (by rw [hg, ← hopc, h])]
  · rw [decode_reserved14 (by rw [hf, h]), decode_reserved14 (by rw [hg, ← hopc, h])]
  · rw [decode_pfail (by rw [hf, h]), decode_pfail (by rw [hg, ← hopc, h]), hf, hg, hv2 h]

/-- Settles O45: each clause changes no field that its opcode number and count make the decoder
read. -/
theorem ignoredFieldsHaveNoEffect : Obligations.IgnoredFieldsHaveNoEffect := by
  intro opc cnt cnt' t1 t2 t1' t2' v1 v2 v1' v2'
  refine ⟨fun h => ?_, ?_, fun hcnt hopc => ?_, ?_⟩
  · have hnone : opcodeOfNumber opc.toNat = none ∧ opc ≠ 15#4 := by
      simp only [List.mem_cons, List.not_mem_nil, or_false] at h
      rcases h with rfl | rfl | rfl | rfl <;> exact ⟨rfl, by decide⟩
    obtain ⟨hno, hpfail⟩ := hnone
    exact decode_congr rfl (fun op hop => by simp [hno] at hop) fun e => absurd e hpfail
  · rintro rfl
    exact decode_congr rfl (fun op hop => by cases hop) fun _ => rfl
  · refine decode_congr rfl (fun _ _ => ?_) fun e => absurd e hopc
    simp only [List.mem_cons, List.not_mem_nil, or_false] at hcnt
    rcases hcnt with rfl | rfl <;> rfl
  · rintro rfl hopc
    exact decode_congr rfl (fun _ _ => rfl) fun e => absurd e hopc

/-- Settles O46: the four words, computed. -/
theorem sampleWordsDecode : Obligations.SampleWordsDecode := by
  unfold Obligations.SampleWordsDecode
  decide

end Sys2Proof.Machine

/-! ## From the line to the word: the parser makes instructions that a word can hold (R41, R50) -/

namespace Sys2Proof.Machine

theorem parseLiteral_error {t : Line} {k : FailureKind} (h : parseLiteral t = .error k) :
    k = .badIntegerLiteral := by
  unfold parseLiteral at h
  split at h
  · split at h <;> cases h
    rfl
  · cases h
    rfl

/-- A token that starts with neither `M` nor `m` is read as a literal (R37). -/
theorem classifyTrimmed_literal {t : Line} (hM : t.head? ≠ some 'M') (hm : t.head? ≠ some 'm') :
    classifyTrimmed t = parseLiteral t := by
  cases t with
  | nil => rfl
  | cons c cs =>
    have hc : ¬ (c = 'M' ∨ c = 'm') := by simpa using And.intro hM hm
    simp only [classifyTrimmed, if_neg hc]

/-- `M` or `m` and one character is a cell address, of whatever value (R37 a). -/
theorem classifyTrimmed_cell {m : Char} (hm : m = 'M' ∨ m = 'm') (c : Char) :
    classifyTrimmed [m, c] = .ok (.memoryLocation (cellAddress c)) := by
  simp only [classifyTrimmed, if_pos hm]

/-- `M` or `m` with any other length (R37 b). -/
theorem classifyTrimmed_badLength {m : Char} (hm : m = 'M' ∨ m = 'm') {t : Line}
    (ht : t.length ≠ 1) : classifyTrimmed (m :: t) = .error .invalidMemoryLocation := by
  match t, ht with
  | [], _ | _ :: _ :: _, _ => simp only [classifyTrimmed, if_pos hm]

theorem classifyTrimmed_error {t : Line} {k : FailureKind} (h : classifyTrimmed t = .error k) :
    k = .invalidMemoryLocation ∨ k = .badIntegerLiteral := by
  unfold classifyTrimmed at h
  split at h
  · exact .inr (parseLiteral_error h)
  · split at h
    · split at h <;> cases h
      exact .inl rfl
    · exact .inr (parseLiteral_error h)

/-- The failures of a token (R37, R38). -/
theorem classify_error {a : Line} {k : FailureKind} (h : classify a = .error k) :
    k = .invalidMemoryLocation ∨ k = .badIntegerLiteral :=
  classifyTrimmed_error h

/-- The failures of a line's tokens are of the parse stage (R36 to R38, R41 c). -/
theorem operandsOf_error_isParseStage {ts : List Line} {k : FailureKind}
    (h : operandsOf ts = .error k) : k.isParseStage = true := by
  have token : ∀ {a k}, classify a = .error k → k.isParseStage = true := fun ha => by
    rcases classify_error ha with rfl | rfl <;> rfl
  unfold operandsOf at h
  split at h
  · cases h
  · split at h <;> cases h
    exact token ‹_›
  · split at h
    · cases h
      exact token ‹_›
    · split at h <;> cases h
      exact token ‹_›
  · cases h
    rfl

theorem opcode_instr_wellFormed (op : Opcode) (args : OperandField) :
    (op.instr args).wellFormed = true := by
  cases op <;> rfl

theorem parseStatement_wellFormed (st : Line) : (parseStatement st).wellFormed = true := by
  unfold parseStatement
  split
  · rfl
  · next op _ =>
    cases h : operandsOf (tokensOf (remainderOf st)) with
    | ok o => exact opcode_instr_wellFormed op _
    | error k => exact operandsOf_error_isParseStage h

/-- The parser makes only instructions that a word can hold (R41, R50). -/
theorem parseLine_wellFormed (l : Line) : (parseLine l).wellFormed = true := by
  unfold parseLine
  split
  · rfl
  · exact parseStatement_wellFormed _

/-- Settles O47: the parse is an instruction that its word gives back. -/
theorem assembledLineDecodesToItsParse : Obligations.AssembledLineDecodesToItsParse :=
  fun l => decodeOfEncode (parseLine l) (parseLine_wellFormed l)

/-- Settles O8: the slot at `ip` holds the word of the line at `ip`. -/
theorem stepRunsTheParsedLine : Obligations.StepRunsTheParsedLine := by
  intro ls s l him hrun hl
  rcases fetch_cases s with ⟨_, w, hw, hfetch⟩ | ⟨hstop, _⟩
  · have hword : w = assembleLine l := by
      rw [him, assemble, List.getElem?_map, hl] at hw
      exact (Option.some.inj hw).symm
    rw [step_of_fetch hfetch, hword, assembledLineDecodesToItsParse]
  · rw [hrun] at hstop
    cases hstop

end Sys2Proof.Machine

/-! ## Valid forms: what `execute` answers for the operand forms of R42 -/

namespace Sys2Proof.Machine

/-- A dispatched slot ends its step with the answer of `execute` (R52). -/
theorem exec_opcode_next {op : Opcode} {o : Operands} {s t : State}
    (h : exec (op.instr (.ops o)) s = .next t) :
    t = s.finish (category op) (execute op o s) := by
  rw [exec_opcode] at h
  exact (Host.Outcome.next.inj h).symm

/-- A failure report of a dispatched slot is that of a failure of `execute` (R58, R84). -/
theorem execute_fail_of_ev {op : Opcode} {o : Operands} {s : State} {j : Int} {k : FailureKind}
    (h : (s.finish (category op) (execute op o s)).ev = s.ev ++ [.failure j k]) :
    execute op o s = .fail k := by
  have hcase := execute_case op o s
  generalize execute op o s = r at hcase h
  cases hcase with
  | @ok t d he =>
    have hev : (s.finish (category op) (.ok t d)).ev = t.ev := by
      simp only [State.finish, applyDistance_eq, State.setIp_ev, State.setLic_ev]
    rw [hev] at h
    rcases he.ev_cases with hsame | ⟨v, _, hout⟩
    · simp [h] at hsame
    · simp [h] at hout
  | fail _ =>
    simp only [State.finish, State.takeFailure_ev, State.setLic_ev, State.setLic_ip,
      List.append_cancel_left_eq] at h
    cases h
    rfl
  | overflow _ _ _ _ => simp [State.finish] at h

/-- R42 against one answer `r` of `execute`: a valid form fails neither by count nor by tag, any
other form by one of the two or, for a 1-operand jump after no CMP, by IllegalJumpInstruction. -/
structure FormAnswer (op : Opcode) (o : Operands) (s : State) (r : Result) : Prop where
  valid : (op.instr (.ops o)).validForm = true →
    r ≠ .fail .invalidNumberOfParams ∧ r ≠ .fail .invalidOperand
  invalid : (op.instr (.ops o)).validForm = false → op ≠ .exit →
    r = .fail .invalidNumberOfParams ∨ r = .fail .invalidOperand ∨
      (isFlagJump (op.instr (.ops o)) = true ∧ s.lic ≠ .comparison ∧
        r = .fail .illegalJumpInstruction)

theorem FormAnswer.of_valid {op : Opcode} {o : Operands} {s : State} {r : Result}
    (hform : (op.instr (.ops o)).validForm = true)
    (hr : r ≠ .fail .invalidNumberOfParams ∧ r ≠ .fail .invalidOperand) : FormAnswer op o s r :=
  ⟨fun _ => hr, fun h => by rw [hform] at h; cases h⟩

theorem FormAnswer.of_invalid {op : Opcode} {o : Operands} {s : State} {r : Result}
    (hform : (op.instr (.ops o)).validForm = false)
    (hr : r = .fail .invalidNumberOfParams ∨ r = .fail .invalidOperand) : FormAnswer op o s r :=
  ⟨fun h => (by rw [hform] at h; cases h), fun _ _ => hr.imp_right .inl⟩

theorem binaryOnStack_formAnswer {op : Opcode} (hop : op = .add ∨ op = .mul)
    (f : Word → Word → Word) (o : Operands) (s : State) :
    FormAnswer op o s (binaryOnStack f o s) := by
  have hform : (op.instr (.ops .zero)).validForm = true := by rcases hop with rfl | rfl <;> rfl
  rcases binaryOnStack_cases f o s with ⟨ho, h⟩ | ⟨rfl, _, h⟩ | ⟨b, a, rest, rfl, _, h⟩ <;> rw [h]
  · refine .of_invalid ?_ (.inl rfl)
    cases o with
    | zero => exact absurd rfl ho
    | one _ | two _ _ => rcases hop with rfl | rfl <;> rfl
  · exact .of_valid hform (by simp)
  · exact .of_valid hform (by simp)

theorem executeJump_formAnswer {op : Opcode} (hop : op = .jz ∨ op = .jnz ∨ op = .jpos)
    (condCR : CmpResult → Bool) (condV : Word → Bool) (o : Operands) (s : State) :
    FormAnswer op o s (executeJump condCR condV o s) := by
  have hform : (op.instr (.ops o)).validForm = (OperandField.ops o).validJump := by
    rcases hop with rfl | rfl | rfl <;> rfl
  rcases executeJump_cases condCR condV o s with
    ⟨rfl, h⟩ | ⟨o1, rfl, hl, h⟩ | ⟨_, rfl, _, h⟩ | ⟨d, rfl, _, h⟩ | ⟨_, _, rfl, h⟩ |
    ⟨_, _, rfl, _, h⟩ | ⟨_, _, _, rfl, _, h⟩ <;> rw [h]
  · exact .of_invalid hform (.inl rfl)
  · exact ⟨fun _ => by simp, fun _ _ =>
      .inr (.inr ⟨by rcases hop with rfl | rfl | rfl <;> rfl, hl, rfl⟩)⟩
  · exact .of_invalid hform (.inr rfl)
  · exact .of_valid hform (by simp)
  · exact .of_invalid hform (.inr rfl)
  · exact .of_valid hform (by simp)
  · exact .of_valid hform (by simp)

/-- MOV of a valid form fails only by an address (R68). -/
theorem executeMov_formAnswer (o : Operands) (s : State) :
    FormAnswer .mov o s (executeMov o s) := by
  match o with
  | .zero | .one _ => exact .of_invalid rfl (.inl rfl)
  | .two (.integer _) _ => exact .of_invalid rfl (.inr rfl)
  | .two (.memoryLocation n) src =>
    refine .of_valid rfl ?_
    rcases hn : validAddress n with _ | _
    · simp [executeMov, hn]
    · rcases resolves_or_badAddress s src with ⟨v, _, hr⟩ | ⟨_, hr⟩
      · rcases memWrite_cases s n v with ⟨i, _, hw⟩ | ⟨_, hw⟩ <;>
          simp [executeMov, hn, hr, hw, Result.ofExcept]
      · simp [executeMov, hn, hr]

/-- PUSH of a valid form fails only by an address; its machine fault is no failure (R74). -/
theorem executePush_formAnswer (o : Operands) (s : State) :
    FormAnswer .push o s (executePush o s) := by
  match o with
  | .zero | .two _ _ => exact .of_invalid rfl (.inl rfl)
  | .one o1 =>
    refine .of_valid rfl ?_
    rcases resolves_or_badAddress s o1 with ⟨v, _, hr⟩ | ⟨_, hr⟩
    · rcases push_cases s v with ⟨_, hp⟩ | ⟨_, hp⟩ <;> simp [executePush, hr, hp]
    · simp [executePush, hr]

/-- POP of a valid form fails only by an empty stack or an address (R75). -/
theorem executePop_formAnswer (o : Operands) (s : State) :
    FormAnswer .pop o s (executePop o s) := by
  match o with
  | .zero | .two _ _ => exact .of_invalid rfl (.inl rfl)
  | .one (.integer _) => exact .of_invalid rfl (.inr rfl)
  | .one (.memoryLocation n) =>
    refine .of_valid rfl ?_
    rcases pop_cases s with ⟨v, rest, _, hp⟩ | ⟨_, hp⟩
    · rcases hn : validAddress n with _ | _
      · simp [executePop, hp, hn]
      · rcases memWrite_cases (s.setStack rest) n v with ⟨i, _, hw⟩ | ⟨_, hw⟩ <;>
          simp [executePop, hp, hn, hw, Result.ofExcept]
    · simp [executePop, hp]

/-- CMP of a valid form fails only by an address (R69). -/
theorem executeCmp_formAnswer (o : Operands) (s : State) :
    FormAnswer .cmp o s (executeCmp o s) := by
  match o with
  | .zero | .one _ => exact .of_invalid rfl (.inl rfl)
  | .two o1 o2 =>
    refine .of_valid rfl ?_
    rcases resolves_or_badAddress s o1 with ⟨x, _, hr1⟩ | ⟨_, hr1⟩
    · rcases resolves_or_badAddress s o2 with ⟨y, _, hr2⟩ | ⟨_, hr2⟩ <;>
        simp [executeCmp, hr1, hr2]
    · simp [executeCmp, hr1]

/-- OUTPUT of a valid form fails only by an address (R76). -/
theorem executeOutput_formAnswer (o : Operands) (s : State) :
    FormAnswer .output o s (executeOutput o s) := by
  match o with
  | .zero | .two _ _ => exact .of_invalid rfl (.inl rfl)
  | .one o1 =>
    refine .of_valid rfl ?_
    rcases resolves_or_badAddress s o1 with ⟨v, _, hr⟩ | ⟨_, hr⟩ <;> simp [executeOutput, hr]

theorem execute_formAnswer (op : Opcode) (o : Operands) (s : State) :
    FormAnswer op o s (execute op o s) := by
  cases op with
  | add => exact binaryOnStack_formAnswer (.inl rfl) _ o s
  | mul => exact binaryOnStack_formAnswer (.inr rfl) _ o s
  | mov => exact executeMov_formAnswer o s
  | push => exact executePush_formAnswer o s
  | pop => exact executePop_formAnswer o s
  | cmp => exact executeCmp_formAnswer o s
  | jz => exact executeJump_formAnswer (.inl rfl) _ _ o s
  | jnz => exact executeJump_formAnswer (.inr (.inl rfl)) _ _ o s
  | jpos => exact executeJump_formAnswer (.inr (.inr rfl)) _ _ o s
  | output => exact executeOutput_formAnswer o s
  | exit => exact ⟨fun _ => by simp [execute, executeExit], fun _ h => absurd rfl h⟩

/-- Settles O13: the step ends with the answer of `execute`, whose failures R42 tells apart by the
form. -/
theorem validFormsAreTheOnesThatCanExecute : Obligations.ValidFormsAreTheOnesThatCanExecute := by
  intro op o s t hip hexec
  obtain rfl := exec_opcode_next hexec
  obtain ⟨hvalid, hinvalid⟩ := execute_formAnswer op o s
  refine ⟨fun hform j => ?_, fun hform hop => ?_⟩
  · obtain ⟨hcount, htag⟩ := hvalid hform
    exact ⟨fun hev => hcount (execute_fail_of_ev hev), fun hev => htag (execute_fail_of_ev hev)⟩
  · rcases hinvalid hform hop with h | h | ⟨hflag, hlic, h⟩ <;>
      rw [h, finish_fail_of_nonneg hip]
    · exact .inl rfl
    · exact .inr (.inl rfl)
    · exact .inr (.inr ⟨hflag, hlic, rfl⟩)

end Sys2Proof.Machine

/-! ## Proofs of the family `30_encoding.md`, the text: comments, whitespace, keywords and argument
tokens. -/

namespace Sys2Proof.Machine

/-! ### Whitespace and comments (R33, R34) -/

theorem isBlank_iff {c : Char} : isBlank c = true ↔ c = ' ' ∨ c = '\t' := by
  simp [isBlank]

theorem ne_semicolon_of_isBlank {c : Char} (h : isBlank c = true) : c ≠ ';' := by
  rintro rfl
  cases h

theorem trimLeft_append_of_blank {pre : Line} (h : ∀ c ∈ pre, isBlank c = true) (l : Line) :
    trimLeft (pre ++ l) = trimLeft l :=
  List.dropWhile_append_of_pos h

theorem trimRight_append_of_blank {post : Line} (h : ∀ c ∈ post, isBlank c = true) (l : Line) :
    trimRight (l ++ post) = trimRight l := by
  unfold trimRight
  rw [List.reverse_append,
    List.dropWhile_append_of_pos fun c hc => h c (List.mem_reverse.1 hc)]

/-- What trimming takes away on the right is whitespace. -/
theorem exists_eq_trimRight_append (l : Line) :
    ∃ post, (∀ c ∈ post, isBlank c = true) ∧ l = trimRight l ++ post := by
  refine ⟨(l.reverse.takeWhile isBlank).reverse,
    fun c hc => List.mem_takeWhile_imp (List.mem_reverse.1 hc), ?_⟩
  rw [trimRight, ← List.reverse_append, List.takeWhile_append_dropWhile, List.reverse_reverse]

theorem trimRight_of_nonblank {l : Line} (h : ∀ c ∈ l, isBlank c = false) : trimRight l = l := by
  obtain ⟨post, hpost, hl⟩ := exists_eq_trimRight_append l
  cases post with
  | nil => rw [List.append_nil] at hl; exact hl.symm
  | cons c cs =>
    have hc : c ∈ l := by rw [hl]; simp
    exact absurd (hpost c List.mem_cons_self) (by simp [h c hc])

/-- What trimming takes away is whitespace. -/
theorem exists_eq_append_trim_append (l : Line) :
    ∃ pre post, (∀ c ∈ pre, isBlank c = true) ∧ (∀ c ∈ post, isBlank c = true) ∧
      l = pre ++ trim l ++ post := by
  obtain ⟨post, hpost, hright⟩ := exists_eq_trimRight_append (trimLeft l)
  refine ⟨l.takeWhile isBlank, post, fun c hc => List.mem_takeWhile_imp hc, hpost, ?_⟩
  rw [List.append_assoc, trim_eq, ← hright]
  exact List.takeWhile_append_dropWhile.symm

theorem trim_eq_nil_iff {l : Line} : trim l = [] ↔ ∀ c ∈ l, isBlank c = true := by
  constructor
  · intro h c hc
    obtain ⟨pre, post, hpre, hpost, hl⟩ := exists_eq_append_trim_append l
    rw [hl, h, List.append_nil, List.mem_append] at hc
    exact hc.elim (hpre c) (hpost c)
  · intro h
    have hleft : trimLeft l = [] := List.dropWhile_eq_nil_iff.2 h
    rw [trim_eq, hleft]
    rfl

theorem stripComment_append_of_plain {l : Line} (h : ';' ∉ l) (r : Line) :
    stripComment (l ++ r) = l ++ stripComment r := by
  unfold stripComment
  refine List.takeWhile_append_of_pos fun c hc => ?_
  simpa using fun e : c = ';' => h (e ▸ hc)

/-- Settles O49: `l` is the text before the first `;` of both lines. -/
theorem commentsAreDiscarded : Obligations.CommentsAreDiscarded := by
  intro l r h
  have hstrip : stripComment (l ++ ';' :: r) = stripComment l := by
    rw [stripComment_append_of_plain h, stripComment_plain h]
    simp [stripComment]
  simp only [parseLine, statementOf, hstrip]

/-- Settles O55: trimming drops the whitespace on either side, and classification sees the trimmed
token only. -/
theorem whitespaceAroundTokensIsIgnored : Obligations.WhitespaceAroundTokensIsIgnored := by
  intro pre t post hpre hpost
  calc classify (pre ++ t ++ post)
      = classify (pre ++ t) := by
        rw [← classify_trimRight,
          trimRight_append_of_blank fun c hc => isBlank_iff.2 (hpost c hc), classify_trimRight]
    _ = classify t := by
        rw [← classify_trimLeft,
          trimLeft_append_of_blank fun c hc => isBlank_iff.2 (hpre c hc), classify_trimLeft]

theorem instr_ne_nop (op : Opcode) (args : OperandField) : op.instr args ≠ .nop := by
  cases op <;> exact Instr.noConfusion

/-- A statement is never a NONE slot: it has a keyword or fails (R35, R41). -/
theorem parseStatement_ne_nop (st : Line) : parseStatement st ≠ .nop := by
  unfold parseStatement
  split
  · exact Instr.noConfusion
  · cases operandsOf (tokensOf (remainderOf st)) with
    | ok o => exact instr_ne_nop _ _
    | error k => exact Instr.noConfusion

theorem parseLine_eq_nop_iff {l : Line} : parseLine l = .nop ↔ statementOf l = [] := by
  unfold parseLine
  split
  · next h => simp [h]
  · next h => simp [h, parseStatement_ne_nop]

/-- Settles O48: the blank part of a NONE line is its text before the first `;`, and the rest starts
with that `;`. -/
theorem blankAndCommentLinesAreNone : Obligations.BlankAndCommentLinesAreNone := by
  intro l
  rw [parseLine_eq_nop_iff, statementOf, trim_eq_nil_iff]
  constructor
  · intro h
    refine ⟨stripComment l, l.dropWhile (· != ';'), List.takeWhile_append_dropWhile.symm,
      fun c hc => isBlank_iff.1 (h c hc), ?_⟩
    have hhead := List.head?_dropWhile_not (· != ';') l
    cases hpost : l.dropWhile (· != ';') with
    | nil => exact .inl rfl
    | cons c cs => simpa [hpost] using hhead
  · rintro ⟨pre, post, rfl, hpre, hpost⟩ c hc
    have hplain : ';' ∉ pre := fun h => ne_semicolon_of_isBlank (isBlank_iff.2 (hpre _ h)) rfl
    have hstrip : stripComment post = [] := by
      cases post with
      | nil => rfl
      | cons d ds => simpa [stripComment] using hpost
    rw [stripComment_append_of_plain hplain, hstrip, List.append_nil] at hc
    exact isBlank_iff.2 (hpre c hc)

/-! ### Keywords (R35, R40) -/

theorem head?_trimRight {l : Line} {c : Char} (h : (trimRight l).head? = some c) :
    l.head? = some c := by
  obtain ⟨post, _, hl⟩ := exists_eq_trimRight_append l
  rw [hl, List.head?_append, h]
  rfl

theorem head?_stripComment {l : Line} {c : Char} (h : (stripComment l).head? = some c) :
    l.head? = some c := by
  obtain ⟨comment, hl⟩ : stripComment l <+: l := List.takeWhile_prefix _
  rw [← hl, List.head?_append, h]
  rfl

/-- The keyword token of a statement that starts with it (R35). -/
theorem keywordOf_append {kw r : Line} (hkw : ∀ c ∈ kw, isBlank c = false)
    (hr : ∀ c, r.head? = some c → isBlank c = true) : keywordOf (kw ++ r) = kw := by
  unfold keywordOf
  rw [List.takeWhile_append_of_pos fun c hc => by simp [hkw c hc]]
  cases r with
  | nil => simp
  | cons c cs => simp [hr c rfl]

/-- The remainder of a statement after its keyword token (R35). -/
theorem remainderOf_append {kw r : Line} (hkw : ∀ c ∈ kw, isBlank c = false)
    (hr : ∀ c, r.head? = some c → isBlank c = true) : remainderOf (kw ++ r) = trimLeft r := by
  unfold remainderOf
  rw [List.dropWhile_append_of_pos fun c hc => by simp [hkw c hc]]
  cases r with
  | nil => rfl
  | cons c cs => simp [hr c rfl, trimLeft]

/-- The statement of a line that starts with a keyword keeps the keyword whole (R34). -/
theorem statementOf_keyword_append {kw : Line} (h0 : kw ≠ [])
    (hkw : ∀ c ∈ kw, isBlank c = false ∧ c ≠ ';') (rest : Line) :
    statementOf (kw ++ rest) = kw ++ trimRight (stripComment rest) := by
  obtain ⟨c, cs, rfl⟩ := List.exists_cons_of_ne_nil h0
  have hleft : ∀ l, trimLeft ((c :: cs) ++ l) = (c :: cs) ++ l := fun l => by
    simp [trimLeft, (hkw c List.mem_cons_self).1]
  have hright : trimRight (c :: cs) = c :: cs := trimRight_of_nonblank fun d hd => (hkw d hd).1
  rw [statementOf, stripComment_append_of_plain fun h => (hkw _ h).2 rfl, trim_eq, hleft,
    trimRight_append, hright]
  split
  · next h => rw [h, List.append_nil]
  · rfl

/-- A keyword followed by nothing or by whitespace and any text: the keyword is looked up, and the
argument tokens come from that text alone (R35, R36, R40). -/
theorem parseLine_keyword_append {kw rest : Line} (h0 : kw ≠ [])
    (hkw : ∀ c ∈ kw, isBlank c = false ∧ c ≠ ';')
    (hrest : ∀ c, rest.head? = some c → isBlank c = true) :
    parseLine (kw ++ rest) = (lookupKeyword kw).elim (.pfail .invalidCommand) fun op =>
      instrOf op (operandsOf (tokensOf (statementOf rest))) := by
  have hblank : ∀ c ∈ kw, isBlank c = false := fun c hc => (hkw c hc).1
  have hhead : ∀ c, (trimRight (stripComment rest)).head? = some c → isBlank c = true :=
    fun c hc => hrest c (head?_stripComment (head?_trimRight hc))
  have hparse : ∀ st, st ≠ [] → statementOf (kw ++ rest) = st →
      parseLine (kw ++ rest) = parseStatement st := by
    intro st hne hst
    unfold parseLine
    rw [hst]
    cases st with
    | nil => exact absurd rfl hne
    | cons c cs => rfl
  rw [hparse _ (by simp [h0]) (statementOf_keyword_append h0 hkw rest), parseStatement,
    keywordOf_append hblank hhead, remainderOf_append hblank hhead, trimLeft_trimRight, ← trim_eq,
    ← statementOf]
  cases lookupKeyword kw <;> rfl

/-- A keyword of the table is one token and has no comment (R35). -/
theorem keywordTable_plain {p : Line × Opcode} (hp : p ∈ keywordTable) :
    ∀ c ∈ p.1, isBlank c = false ∧ c ≠ ';' := by
  intro c hc
  obtain ⟨_, hchars, _, _⟩ := keywordTable_entry hp
  obtain ⟨hblank, hsemi, _, _⟩ := hchars c hc
  exact ⟨hblank, hsemi⟩

/-- A keyword of the table with a space and any text after it. -/
theorem parseLine_tableKeyword {p : Line × Opcode} (hp : p ∈ keywordTable) (rest : Line) :
    parseLine (p.1 ++ ' ' :: rest) =
      instrOf p.2 (operandsOf (tokensOf (statementOf (' ' :: rest)))) := by
  obtain ⟨h0, _, hlookup, _⟩ := keywordTable_entry hp
  have hspace : ∀ c, (' ' :: rest).head? = some c → isBlank c = true := by
    rintro c ⟨⟩
    rfl
  rw [parseLine_keyword_append h0 (keywordTable_plain hp) hspace, hlookup]
  rfl

theorem lookupKeyword_of_caseVariant {p : Line × Opcode} {kw : Line} (hp : p ∈ keywordTable)
    (h : CaseVariant kw p.1) : lookupKeyword kw = some p.2 := by
  have hself : p.1.map upperCase = p.1 :=
    (caseVariant_iff hp p.1).1 (List.forall₂_same.2 fun _ _ => .inl rfl)
  obtain ⟨_, _, hlookup, _⟩ := keywordTable_entry hp
  rw [← hlookup, lookupKeyword, lookupKeyword, (caseVariant_iff hp kw).1 h, hself]

theorem lookupKeyword_eq_none {kw : Line} (h : ∀ p ∈ keywordTable, ¬ CaseVariant kw p.1) :
    lookupKeyword kw = none := by
  rw [lookupKeyword, List.lookup_eq_none_iff]
  intro p hp
  simpa using fun e : kw.map upperCase = p.1 => h p hp ((caseVariant_iff hp kw).2 e)

/-- Settles O50: a spelling of a table keyword is looked up as that keyword, any other keyword is
found nowhere, and the rest of the line is the same. -/
theorem keywordsIgnoreCaseAndComeFirst : Obligations.KeywordsIgnoreCaseAndComeFirst := by
  intro kw rest h0 hkw hrest
  have hkw' : ∀ c ∈ kw, isBlank c = false ∧ c ≠ ';' := fun c hc => by
    obtain ⟨hspace, htab, hsemi⟩ := hkw c hc
    exact ⟨by simp [isBlank, hspace, htab], hsemi⟩
  have hrest' : ∀ c, rest.head? = some c → isBlank c = true := fun c hc => by
    rcases hrest with rfl | h | h
    · cases hc
    · cases h.symm.trans hc
      rfl
    · cases h.symm.trans hc
      rfl
  rw [parseLine_keyword_append h0 hkw' hrest']
  refine ⟨fun p hp hcase => ?_, fun hother => ?_⟩
  · obtain ⟨hp0, _, hlookup, _⟩ := keywordTable_entry hp
    rw [parseLine_keyword_append hp0 (keywordTable_plain hp) hrest', hlookup,
      lookupKeyword_of_caseVariant hp hcase]
  · rw [lookupKeyword_eq_none hother]
    rfl

/-! ### Argument tokens in order (R36, R40) -/

theorem splitCommas_length (l : Line) : (splitCommas l).length = l.count ',' + 1 := by
  induction l with
  | nil => rfl
  | cons c cs ih =>
    by_cases hc : c = ','
    · simp [splitCommas, hc, ih]
    · rw [splitCommas, if_neg hc, List.count_cons_of_ne hc, ← ih]
      cases h : splitCommas cs with
      | nil => exact absurd h (splitCommas_ne_nil cs)
      | cons t ts => rfl

theorem tokensOf_length {l : Line} (h : l ≠ []) : (tokensOf l).length = l.count ',' + 1 := by
  rw [tokensOf_ne_nil h, splitCommas_length]

/-- Whitespace is no comma, so trimming takes no comma away. -/
theorem count_comma_trim (l : Line) : (trim l).count ',' = l.count ',' := by
  have hblank : ∀ {r : Line}, (∀ c ∈ r, isBlank c = true) → r.count ',' = 0 := fun h =>
    List.count_eq_zero.2 fun hmem => by cases h _ hmem
  obtain ⟨pre, post, hpre, hpost, hl⟩ := exists_eq_append_trim_append l
  calc (trim l).count ',' = (pre ++ trim l ++ post).count ',' := by
        simp [List.count_append, hblank hpre, hblank hpost]
    _ = l.count ',' := by rw [← hl]

theorem operandsOf_of_three_le {ts : List Line} (h : 3 ≤ ts.length) :
    operandsOf ts = .error .invalidNumberOfParams := by
  match ts, h with
  | _ :: _ :: _ :: _, _ => rfl

/-- Settles O51: the two commas of the text separate at least three tokens. -/
theorem threeTokensFail : Obligations.ThreeTokensFail := by
  intro p rest hp hsemi hcommas
  have hplain : ';' ∉ ' ' :: rest := by simpa using hsemi
  have hcount : (statementOf (' ' :: rest)).count ',' = rest.count ',' := by
    rw [statementOf, stripComment_plain hplain, count_comma_trim, List.count_cons_of_ne (by decide)]
  have hne : statementOf (' ' :: rest) ≠ [] := fun e => by
    rw [e, List.count_nil] at hcount
    omega
  have hlen : 3 ≤ (tokensOf (statementOf (' ' :: rest))).length := by
    rw [tokensOf_length hne]
    omega
  rw [parseLine_tableKeyword hp, operandsOf_of_three_le hlen]
  rfl

/-- Settles O54: a blank remainder has no token; of one or two tokens the first that fails, from the
left, gives the failure of the line. -/
theorem firstBadTokenIsReported : Obligations.FirstBadTokenIsReported := by
  refine ⟨fun a k => classify_error, fun p hp => ⟨?_, ?_, ?_, ?_⟩⟩
  · intro a ha
    have hblank : ∀ c ∈ ' ' :: a, isBlank c = true := fun c hc =>
      isBlank_iff.2 ((List.mem_cons.1 hc).elim .inl (ha c))
    have hplain : ';' ∉ ' ' :: a := fun h => ne_semicolon_of_isBlank (hblank _ h) rfl
    rw [parseLine_tableKeyword hp, statementOf, stripComment_plain hplain,
      trim_eq_nil_iff.2 hblank]
    rfl
  · rintro a k hcomma hsemi ⟨c, hc, hspace, htab⟩ hbad
    have hne : trimRight a ≠ [] := fun e => by
      obtain ⟨post, hpost, ha⟩ := exists_eq_trimRight_append a
      rw [ha, e] at hc
      exact (isBlank_iff.1 (hpost c hc)).elim hspace htab
    rw [parseLine_oneToken hp hcomma hsemi hne, hbad]
    rfl
  · intro a b k hca hsa hcb hsb hbad
    rw [parseLine_twoTokens hp hca hsa hcb hsb, hbad]
    rfl
  · rintro a b o1 k ⟨hca, hsa, hgood⟩ hcb hsb hbad
    rw [parseLine_twoTokens hp hca hsa hcb hsb, hgood, hbad]
    rfl

/-! ### Memory tokens (R37) -/

theorem classify_of_trimmed {t : Line} (h : trim t = t) : classify t = classifyTrimmed t := by
  rw [classify, h]

theorem trim_of_nonblank {l : Line} (h : ∀ c ∈ l, isBlank c = false) : trim l = l := by
  rw [trim_eq, ← trimLeft_trimRight, trimRight_of_nonblank h]
  cases l with
  | nil => rfl
  | cons c cs => simp [trimLeft, h c List.mem_cons_self]

/-- In the 32-bit range the word is the integer (R6). -/
theorem toInt_wrapW {z : Int} (hlow : -2147483648 ≤ z) (hhigh : z ≤ 2147483647) :
    (wrapW z).toInt = z := by
  rw [wrapW, BitVec.toInt_ofInt, Int.bmod_eq_of_le (by omega) (by omega)]

theorem toNat_lt_of_char (c : Char) : c.toNat < 1114112 := by
  rcases c.valid with h | ⟨_, h⟩
  · exact lt_trans h (by norm_num)
  · exact h

/-- No code point is wrapped (R37 a). -/
theorem toInt_cellAddress (c : Char) : (cellAddress c).toInt = (c.toNat : Int) - 48 := by
  have hc := toNat_lt_of_char c
  exact toInt_wrapW (by omega) (by omega)

/-- Settles O52: the length of the trimmed token decides, and the digits `1` to `8` have the code
points 49 to 56. -/
theorem memoryTokensClassifyByLength : Obligations.MemoryTokensClassifyByLength := by
  intro m hm
  refine ⟨fun c hspace htab => ⟨cellAddress c, ?_, toInt_cellAddress c, ?_⟩, fun t htrim hlen => ?_⟩
  · have hblank : ∀ d ∈ [m, c], isBlank d = false := by
      rcases hm with rfl | rfl <;> simp [isBlank, hspace, htab]
    rw [classify_of_trimmed (trim_of_nonblank hblank), classifyTrimmed_cell hm]
  · have hone : '1' ≤ c ↔ 49 ≤ c.toNat := Iff.rfl
    have height : c ≤ '8' ↔ c.toNat ≤ 56 := Iff.rfl
    rw [toInt_cellAddress, hone, height]
    omega
  · rw [classify_of_trimmed htrim, classifyTrimmed_badLength hm hlen]

/-! ### Integer literals (R38) -/

theorem isDigit_iff {c : Char} : isDigit c = true ↔ '0' ≤ c ∧ c ≤ '9' := by
  have hzero : '0' ≤ c ↔ 48 ≤ c.toNat := Iff.rfl
  have hnine : c ≤ '9' ↔ c.toNat ≤ 57 := Iff.rfl
  simp [isDigit, hzero, hnine]

/-- The value that a digit text writes, as Mathlib's value of a digit list, least digit first. -/
theorem digitsValue_eq_ofDigits (ds : Line) :
    digitsValue ds = Nat.ofDigits 10 (ds.reverse.map fun c => c.toNat - 48) := by
  rw [digitsValue, Nat.ofDigits_eq_foldr, List.foldr_map, List.foldr_reverse]
  simp [Nat.add_comm]

/-- The digit texts of R38. -/
def IsDigits (ds : Line) : Prop := ds ≠ [] ∧ ∀ c ∈ ds, '0' ≤ c ∧ c ≤ '9'

theorem isDigits_iff {ds : Line} : ds ≠ [] ∧ ds.all isDigit = true ↔ IsDigits ds := by
  simp only [IsDigits, List.all_eq_true, isDigit_iff]

/-- A digit text has no sign. -/
theorem not_isDigits_minus (ds : Line) : ¬ IsDigits ('-' :: ds) := by
  rintro ⟨_, hdigit⟩
  exact absurd (hdigit '-' List.mem_cons_self) (by decide)

/-- The grammar of R38 and the value it writes. -/
theorem literalValue_eq_some_iff {t : Line} {v : Int} :
    literalValue t = some v ↔ ∃ ds, IsDigits ds ∧
      ((t = ds ∧ v = digitsValue ds) ∨ (t = '-' :: ds ∧ v = -(digitsValue ds : Int))) := by
  unfold literalValue
  split
  · next ds =>
    simp only [isDigits_iff, Option.ite_none_right_eq_some, Option.some.injEq]
    constructor
    · rintro ⟨hds, rfl⟩
      exact ⟨ds, hds, .inr ⟨rfl, rfl⟩⟩
    · rintro ⟨ds', hds, ⟨rfl, _⟩ | ⟨he, rfl⟩⟩
      · exact absurd hds (not_isDigits_minus ds)
      · cases he
        exact ⟨hds, rfl⟩
  · next hminus =>
    simp only [isDigits_iff, Option.ite_none_right_eq_some, Option.some.injEq]
    constructor
    · rintro ⟨hds, rfl⟩
      exact ⟨t, hds, .inl ⟨rfl, rfl⟩⟩
    · rintro ⟨ds', hds, ⟨rfl, rfl⟩ | ⟨he, _⟩⟩
      · exact ⟨hds, rfl⟩
      · exact absurd he (hminus ds')

/-- A literal reads as the word of its value, when that is in the 32-bit range (R38). -/
theorem parseLiteral_eq_ok_iff {t : Line} {v : Word} :
    parseLiteral t = .ok (.integer v) ↔ literalValue t = some v.toInt := by
  have hlow : -2147483648 ≤ v.toInt := BitVec.le_toInt v
  have hhigh : v.toInt < 2147483648 := BitVec.toInt_lt
  unfold parseLiteral
  cases literalValue t with
  | none => simp
  | some z =>
    simp only [Option.some.injEq]
    constructor
    · intro h
      split at h
      · next hrange =>
        cases h
        exact (toInt_wrapW hrange.1 hrange.2).symm
      · cases h
    · rintro rfl
      rw [if_pos ⟨hlow, by omega⟩, wrapW, BitVec.ofInt_toInt]

theorem parseLiteral_cases (t : Line) :
    (∃ v, parseLiteral t = .ok (.integer v)) ∨ parseLiteral t = .error .badIntegerLiteral := by
  unfold parseLiteral
  split
  · split
    · exact .inl ⟨_, rfl⟩
    · exact .inr rfl
  · exact .inr rfl

/-- Settles O53: a token without `M` or `m` is read as a literal, whose grammar and range R38
gives. -/
theorem literalsAreDecimalAndInRange : Obligations.LiteralsAreDecimalAndInRange := by
  intro t htrim hM hm
  rw [classify_of_trimmed htrim, classifyTrimmed_literal hM hm]
  refine ⟨fun v => ?_, fun hnone => ?_⟩
  · simp only [parseLiteral_eq_ok_iff, literalValue_eq_some_iff, ← digitsValue_eq_ofDigits, IsDigits,
      and_assoc]
  · exact (parseLiteral_cases t).resolve_left fun ⟨v, hv⟩ => hnone v hv

end Sys2Proof.Machine

/-! ## Proofs of the family `40_step_cycle.md`: the run condition, the step against the spec's
pseudocode, and what a dispatch, a failure and a machine fault leave in the state. -/

namespace Sys2Proof.Machine

/-! ### When a step is taken (R51, R52, R64) -/

/-- What `step` can answer, one case for each reason to stop and one for the step taken. -/
inductive StepCase (s : State) : Host.Outcome State Fault Refusal → Prop where
  | fetchOutOfRange : s.fs = .fetchOutOfRange → StepCase s (.fault .fetchOutOfRange)
  | stackOverflow : s.fs = .stackOverflow → StepCase s (.fault .stackOverflow)
  | exitHalt : s.fs = .noFault → s.lic = .exit → StepCase s (.fault .exitHalt)
  | negativeIp : s.fs = .noFault → s.lic ≠ .exit → s.ip < 0 →
      StepCase s (.fault .fetchOutOfRange)
  | endOfProgram : s.fs = .noFault → s.lic ≠ .exit → (s.im.length : Int) ≤ s.ip →
      StepCase s (.fault .endOfProgram)
  | taken {w : InstrWord} {t : State} : s.runCondition = true → s.im[s.ip.toNat]? = some w →
      exec (decode w) s = .next t → StepCase s (.next t)

/-- Under the run condition the slot at `ip` exists and the fetch returns it (R51, R52). -/
theorem fetch_of_runCondition {s : State} (h : s.runCondition = true) :
    ∃ w, s.im[s.ip.toNat]? = some w ∧ s.fetch = .ok w := by
  rcases fetch_cases s with ⟨_, hfetch⟩ | ⟨hstop, _⟩
  · exact hfetch
  · rw [h] at hstop
    cases hstop

theorem fetch_of_exit {s : State} (hfs : s.fs = .noFault) (hlic : s.lic = .exit) :
    s.fetch = .error .exitHalt := by
  simp only [State.fetch, hfs, hlic, if_true]

theorem fetch_of_negativeIp {s : State} (hfs : s.fs = .noFault) (hlic : s.lic ≠ .exit)
    (hip : s.ip < 0) : s.fetch = .error .fetchOutOfRange := by
  simp only [State.fetch, hfs, if_neg hlic, if_pos hip]

theorem fetch_of_endOfProgram {s : State} (hfs : s.fs = .noFault) (hlic : s.lic ≠ .exit)
    (hend : (s.im.length : Int) ≤ s.ip) : s.fetch = .error .endOfProgram := by
  have hip : ¬ s.ip < 0 := by omega
  have hslot : s.im[s.ip.toNat]? = none := List.getElem?_eq_none_iff.2 (by omega)
  simp only [State.fetch, hfs, if_neg hlic, if_neg hip, hslot]

/-- Everything `step` can answer: a machine fault stops it first, then ExitHalt, then the range of
`ip` (R51, R64). -/
theorem step_case (s : State) : StepCase s (step s) := by
  cases hfs : s.fs with
  | fetchOutOfRange =>
    rw [step_of_stop (f := .fetchOutOfRange) (by simp only [State.fetch, hfs])]
    exact .fetchOutOfRange hfs
  | stackOverflow =>
    rw [step_of_stop (f := .stackOverflow) (by simp only [State.fetch, hfs])]
    exact .stackOverflow hfs
  | noFault =>
    by_cases hlic : s.lic = .exit
    · rw [step_of_stop (fetch_of_exit hfs hlic)]
      exact .exitHalt hfs hlic
    rcases lt_or_ge s.ip 0 with hneg | hip
    · rw [step_of_stop (fetch_of_negativeIp hfs hlic hneg)]
      exact .negativeIp hfs hlic hneg
    rcases le_or_gt (s.im.length : Int) s.ip with hend | hlen
    · rw [step_of_stop (fetch_of_endOfProgram hfs hlic hend)]
      exact .endOfProgram hfs hlic hend
    have hrun : s.runCondition = true := runCondition_iff.2 ⟨hfs, hip, hlen, hlic⟩
    obtain ⟨w, hw, hfetch⟩ := fetch_of_runCondition hrun
    obtain ⟨t, hexec⟩ := exec_answers_next (decode w) s
    rw [step_of_fetch hfetch, hexec]
    exact .taken hrun hw hexec

/-- Settles O4: the fetch returns the slot at `ip`, and the step runs its decoded word. -/
theorem stepRunsTheDecodedInstruction : Obligations.StepRunsTheDecodedInstruction := by
  intro s hrun
  obtain ⟨w, hw, hfetch⟩ := fetch_of_runCondition hrun
  exact ⟨w, hw, step_of_fetch hfetch⟩

/-- Settles O5: only the run condition lets the fetch return a slot, and every slot can be run. -/
theorem stepTakenIffRunCondition : Obligations.StepTakenIffRunCondition := by
  intro s
  rw [← runCondition_iff]
  constructor
  · rintro ⟨t, hnext⟩
    obtain ⟨hrun, -⟩ := step_next hnext
    exact hrun
  · intro hrun
    obtain ⟨w, _, hstep⟩ := stepRunsTheDecodedInstruction s hrun
    rw [hstep]
    exact exec_answers_next (decode w) s

/-- Settles O6: in each case of the step the answer is named by its case, and the conditions of the
other names are false. -/
theorem stopNamesItsReason : Obligations.StopNamesItsReason := by
  intro s
  have hcase := step_case s
  generalize step s = answer at hcase ⊢
  cases hcase with
  | fetchOutOfRange hfs => simp [hfs]
  | stackOverflow hfs => simp [hfs]
  | exitHalt hfs hlic => simp [hfs, hlic]
  | negativeIp hfs hlic hneg =>
    have hinside : s.ip < s.im.length := by omega
    simp [hfs, hlic, hneg, hinside]
  | endOfProgram hfs hlic hend =>
    have hip : 0 ≤ s.ip := by omega
    simp [hfs, hlic, hend, hip]
  | taken hrun _ _ =>
    obtain ⟨hfs, hip, hlen, hlic⟩ := runCondition_iff.1 hrun
    simp [hfs, hlic, hip, hlen]

/-! ### The step against the spec's pseudocode (R47, R52) -/

/-- A write of `ip` with R52's last test for a negative value. -/
theorem setIp_eq_lastTest (s : State) (x : Int) :
    s.setIp x =
      if x < 0 then { s with ip := x, fs := .fetchOutOfRange } else { s with ip := x } := by
  split
  · next hneg => exact setIp_of_neg hneg
  · next hip => exact setIp_of_nonneg (not_lt.1 hip)

theorem recordStep_nop (s : State) : recordStep .nop s = s.advance :=
  (setIp_eq_lastTest s _).symm

theorem recordStep_parseFail (k : FailureKind) (s : State) :
    recordStep (.parseFail k) s = s.takeFailure k :=
  (setIp_eq_lastTest (s.emit (.failure s.ip k)) _).symm

/-- R52's `Instr` case is the end of the step with the answer of `execute`, because no effect moves
`ip`. -/
theorem recordStep_instr (op : Opcode) (o : Operands) (s : State) :
    recordStep (.instr op o) s = s.finish (category op) (execute op o s) := by
  have hcase := execute_case op o s
  dsimp only [recordStep]
  generalize execute op o s = r at hcase ⊢
  cases hcase with
  | @ok t d he =>
    obtain ⟨hip, -⟩ := he.frame
    simp only [State.finish, applyDistance_eq, State.setLic_ip, hip, jumpTarget, ne_eq, ite_not]
    exact (setIp_eq_lastTest (t.setLic (category op)) _).symm
  | @fail k _ =>
    exact (setIp_eq_lastTest ((s.setLic (category op)).emit (.failure s.ip k)) _).symm
  | overflow _ _ _ _ => rfl

/-- A slot does what R52's pseudocode says for its record. -/
theorem exec_eq_recordStep (i : Instr) (s : State) :
    exec i s = .next (recordStep i.record s) := by
  rcases instr_cases i with rfl | ⟨k, hrec, hfail⟩ | ⟨op, o, rfl⟩
  · exact congrArg _ (recordStep_nop s).symm
  · rw [hfail, hrec, recordStep_parseFail]
  · rw [exec_opcode, record_opcode]
    exact congrArg _ (recordStep_instr op o s).symm

/-- Settles O7: the decoder gives the record of R47's pseudocode, and the slot runs as R52's
pseudocode over that record. -/
theorem stepFollowsThePseudocode : Obligations.StepFollowsThePseudocode := by
  intro s w hrun hw
  obtain ⟨w', hw', hstep⟩ := stepRunsTheDecodedInstruction s hrun
  obtain rfl : w = w' := Option.some.inj (hw.symm.trans hw')
  rw [hstep, exec_eq_recordStep, decoderFollowsThePseudocode]

/-! ### What a dispatch and a failure leave in the state (R53 to R58, R84) -/

theorem dispatched_opcode (op : Opcode) (o : Operands) :
    dispatched (op.instr (.ops o)) = some op := by
  rw [dispatched, record_opcode]
  rfl

theorem dispatched_of_parseFail {i : Instr} {k : FailureKind} (h : i.record = .parseFail k) :
    dispatched i = none := by
  rw [dispatched, h]

/-- Settles O9: the end of a dispatched step writes the category, StackOverflow only `FS`, and a
slot that is not dispatched only advances or reports. -/
theorem everyDispatchWritesTheCategory : Obligations.EveryDispatchWritesTheCategory := by
  intro i s t hexec
  cases exec_cases hexec with
  | nop hi =>
    subst hi
    exact ⟨fun op hop => (by cases hop), fun _ => rfl⟩
  | parseFail hrec => simp [dispatched_of_parseFail hrec]
  | ok hi _ => simp [hi, dispatched_opcode, applyDistance_eq]
  | fail hi _ _ => simp [hi, dispatched_opcode]
  | overflow hi _ _ =>
    subst hi
    refine ⟨fun op hop => ?_, fun hnone => by cases hnone⟩
    cases hop
    exact .inr ⟨rfl, rfl⟩

/-- Settles O11: only the two failure cases of a slot report a failure, and both write nothing but
`LIC`, the report and the advance. -/
theorem failureChangesNothingElse : Obligations.FailureChangesNothingElse := by
  intro i s t j k hip hexec hev
  cases exec_cases hexec with
  | nop _ | overflow _ _ _ => simp at hev
  | ok _ he =>
    rw [applyDistance_eq, State.setIp_ev, State.setLic_ev] at hev
    rcases he.ev_cases with hsame | ⟨v, _, hout⟩
    · simp [hev] at hsame
    · simp [hev] at hout
  | parseFail hrec =>
    obtain ⟨rfl, rfl⟩ : s.ip = j ∧ _ = k := by simpa using hev
    rw [dispatched_of_parseFail hrec, takeFailure_of_nonneg hip]
    exact ⟨rfl, rfl⟩
  | @fail op _ _ hi _ _ =>
    obtain ⟨rfl, rfl⟩ : s.ip = j ∧ _ = k := by simpa using hev
    rw [hi, dispatched_opcode, takeFailure_of_nonneg (s := s.setLic (category op)) hip]
    exact ⟨rfl, rfl⟩

/-- Settles O31: the opcode number alone makes a NONE slot, and from a slot of the program the
advance does not reach below 0. -/
theorem noneOnlyAdvances : Obligations.NoneOnlyAdvances := by
  constructor
  · intro cnt t1 t2 v1 v2
    exact decode_none (congrArg Fields.opc (ofWord_toWord _))
  · intro s hip
    exact congrArg Host.Outcome.next (advance_of_nonneg hip)

/-! ### The causes of a machine fault (R59, R74, R88) -/

/-- A success with a distance is that of a jump, and the distance is its literal operand (R70). -/
theorem Effect.jump_of_distance_ne_zero {s t : State} {op : Opcode} {o : Operands} {d : Word}
    (h : Effect s op o t d) (hd : d ≠ 0) :
    (op = .jz ∨ op = .jnz ∨ op = .jpos) ∧ t = s ∧
      (o = .one (.integer d) ∨ ∃ o1, o = .two o1 (.integer d)) := by
  cases h with
  | flagJump hop _ he =>
    obtain rfl := he.resolve_right hd
    exact ⟨hop, rfl, .inl rfl⟩
  | valueJump hop _ he =>
    obtain rfl := he.resolve_right hd
    exact ⟨hop, rfl, .inr ⟨_, rfl⟩⟩
  | _ => exact absurd rfl hd

/-- What a slot of the program can do to `FS`: leave it, jump below 0, or overflow the stack. -/
theorem ExecCase.fs_cases {i : Instr} {s t : State} (h : ExecCase i s t) (hip : 0 ≤ s.ip) :
    t.fs = s.fs ∨
    (∃ (op : Opcode) (o : Operands) (d : Word), (op = .jz ∨ op = .jnz ∨ op = .jpos) ∧
      i = op.instr (.ops o) ∧ (o = .one (.integer d) ∨ ∃ o1, o = .two o1 (.integer d)) ∧
      s.ip + d.toInt < 0 ∧
      t = { s with lic := .jump, ip := s.ip + d.toInt, fs := .fetchOutOfRange }) ∨
    (∃ o1 v, i = .push (.ops (.one o1)) ∧ Resolves s o1 v ∧
      s.params.stackDepth = some s.depth ∧ t = s.machineFault .stackOverflow) := by
  have hadvance : ¬ s.ip + 1 < 0 := by omega
  cases h with
  | nop _ | parseFail _ | fail _ _ _ => exact .inl (by simp [hadvance])
  | overflow hi hv hfull => exact .inr (.inr ⟨_, _, hi, hv, hfull, rfl⟩)
  | @ok op o u d hi he =>
    obtain ⟨huip, hufs, -⟩ := he.frame
    rw [applyDistance_eq, State.setLic_ip, huip]
    rcases lt_or_ge (jumpTarget s.ip d) 0 with hneg | hstay
    · have hd : d ≠ 0 := by
        rintro rfl
        exact hadvance hneg
      obtain ⟨hop, rfl, hform⟩ := he.jump_of_distance_ne_zero hd
      have hcategory : category op = .jump := by rcases hop with rfl | rfl | rfl <;> rfl
      rw [jumpTarget_of_ne hd] at hneg ⊢
      rw [setIp_of_neg hneg, hcategory]
      exact .inr (.inl ⟨op, o, d, hop, hi, hform, hneg, rfl⟩)
    · rw [setIp_of_nonneg hstay]
      exact .inl hufs

/-- Settles O34: the step starts without a fault, so the one it enters is of the two that a slot
can cause. -/
theorem machineFaultsHaveTheirTwoCauses : Obligations.MachineFaultsHaveTheirTwoCauses := by
  intro s t hstep
  obtain ⟨hrun, w, hw, hexec⟩ := step_next hstep
  obtain ⟨hfs, hip, -, -⟩ := runCondition_iff.1 hrun
  refine ⟨w, hw, ?_⟩
  rcases (exec_cases hexec).fs_cases hip with
    hsame | ⟨op, o, d, hop, hi, hform, hneg, rfl⟩ | ⟨o1, v, hi, hv, hfull, rfl⟩
  · simp [hsame, hfs]
  · refine ⟨fun _ => ⟨d, o, hform, ?_, hneg, rfl⟩, fun h => by cases h⟩
    rcases hop with rfl | rfl | rfl
    · exact .inl hi
    · exact .inr (.inl hi)
    · exact .inr (.inr hi)
  · exact ⟨fun h => (by cases h), fun _ => ⟨⟨o1, v, hi, hv⟩, hfull, rfl⟩⟩

end Sys2Proof.Machine

/-! ## Proofs of the family `41_arith.md`: the wrapped result, and ADD and MUL as the two
instances of one body. -/

namespace Sys2Proof.Machine

/-! ### The wrapped result (R6, R65) -/

/-- Settles O17: the wrapped value is the balanced remainder modulo `2^32`. -/
theorem wrapKeepsTheLowBits : Obligations.WrapKeepsTheLowBits := by
  intro z
  have hcongr : (4294967296 : Int) ∣ (wrapW z).toInt - z := by
    rw [wrapW, BitVec.toInt_ofInt]
    exact Int.dvd_bmod_sub_self
  exact ⟨BitVec.le_toInt (wrapW z), Int.le_of_lt_add_one (BitVec.toInt_lt (x := wrapW z)), hcongr,
    toInt_wrapW⟩

/-! ### A dispatched slot from what `execute` answers (R52, R57, R58) -/

theorem exec_of_execute_ok {op : Opcode} {o : Operands} {s t : State} (hip : 0 ≤ s.ip)
    (hok : execute op o s = .ok t 0) (ht : t.ip = s.ip) :
    exec (op.instr (.ops o)) s = .next { t with lic := category op, ip := s.ip + 1 } := by
  rw [exec_opcode, dispatch, hok, finish_ok_of_nonneg hip ht]

theorem exec_of_execute_fail {op : Opcode} {o : Operands} {s : State} {k : FailureKind}
    (hip : 0 ≤ s.ip) (hfail : execute op o s = .fail k) :
    exec (op.instr (.ops o)) s = .next (s.afterFailure (category op) k) := by
  rw [exec_opcode, dispatch, hfail, finish_fail_of_nonneg hip]

/-! ### The body that ADD and MUL share (R66, R67) -/

theorem binaryOnStack_of_entries {s : State} {b a : Word} {rest : List Word}
    (f : Word → Word → Word) (h : s.stack = b :: a :: rest) :
    binaryOnStack f .zero s = .ok (s.setStack (f a b :: rest)) 0 := by
  simp only [binaryOnStack, h]

theorem binaryOnStack_of_short {s : State} (f : Word → Word → Word) (h : s.stack.length < 2) :
    binaryOnStack f .zero s = .fail .stackNotReady := by
  rcases binaryOnStack_cases f .zero s with ⟨hne, _⟩ | ⟨_, _, hfail⟩ | ⟨b, a, rest, _, hs, _⟩
  · exact absurd rfl hne
  · exact hfail
  · simp [hs] at h

theorem binaryOnStack_of_operands {o : Operands} (f : Word → Word → Word) (s : State)
    (h : o ≠ .zero) : binaryOnStack f o s = .fail .invalidNumberOfParams := by
  rcases binaryOnStack_cases f o s with ⟨_, hfail⟩ | ⟨hzero, _, _⟩ | ⟨_, _, _, hzero, _, _⟩
  · exact hfail
  · exact absurd hzero h
  · exact absurd hzero h

/-- Every form of an opcode of category Data whose body is `binaryOnStack f`. -/
theorem exec_binaryOnStack {op : Opcode} {f : Word → Word → Word}
    (hbody : ∀ o s, execute op o s = binaryOnStack f o s) (hcategory : category op = .data)
    {s : State} (hip : 0 ≤ s.ip) :
    (∀ b a rest, s.stack = b :: a :: rest →
      exec (op.instr (.ops .zero)) s = .next { s with
        stack := f a b :: rest, lic := .data, ip := s.ip + 1 }) ∧
    (s.stack.length < 2 →
      exec (op.instr (.ops .zero)) s = .next (s.afterFailure .data .stackNotReady)) ∧
    (∀ o, o ≠ .zero →
      exec (op.instr (.ops o)) s = .next (s.afterFailure .data .invalidNumberOfParams)) := by
  rw [← hcategory]
  refine ⟨fun b a rest hs => ?_, fun hshort => ?_, fun o ho => ?_⟩
  · exact exec_of_execute_ok hip ((hbody .zero s).trans (binaryOnStack_of_entries f hs)) rfl
  · exact exec_of_execute_fail hip ((hbody .zero s).trans (binaryOnStack_of_short f hshort))
  · exact exec_of_execute_fail hip ((hbody o s).trans (binaryOnStack_of_operands f s ho))

/-- Settles O18: number 1 and keyword `ADD` are those of the tables, and ADD is the shared body
with the wrapped sum. -/
theorem addPopsTwoAndPushesTheSum : Obligations.AddPopsTwoAndPushesTheSum := by
  have hbody : ∀ o s, execute .add o s = binaryOnStack addW o s := fun _ _ => rfl
  exact ⟨writtenAs rfl (by decide), fun _ hip => exec_binaryOnStack hbody rfl hip⟩

/-- Settles O19: number 2 and keyword `MUL` are those of the tables, and MUL is the shared body
with the wrapped product. -/
theorem mulPopsTwoAndPushesTheProduct : Obligations.MulPopsTwoAndPushesTheProduct := by
  have hbody : ∀ o s, execute .mul o s = binaryOnStack mulW o s := fun _ _ => rfl
  exact ⟨writtenAs rfl (by decide), fun _ hip => exec_binaryOnStack hbody rfl hip⟩

end Sys2Proof.Machine

/-! ## Proofs of the family `42_mov.md`: the answers of `execute` for MOV, form by form, and MOV as a
step. -/

namespace Sys2Proof.Machine

/-! ### What `execute` answers for MOV (R68) -/

theorem memWrite_of_cellIndex {s : State} {a v : Word} {i : Fin Config.numCells}
    (h : cellIndex a = some i) : s.memWrite a v = .ok (s.setCell i v) := by
  simp only [State.memWrite, h]

theorem executeMov_of_resolves {s : State} {n v : Word} {i : Fin Config.numCells} {src : Operand}
    (hn : cellIndex n = some i) (hsrc : Resolves s src v) :
    executeMov (.two (.memoryLocation n) src) s = .ok (s.setCell i v) 0 := by
  have hvalid : validAddress n = true := by rw [validAddress, hn, Option.isSome_some]
  simp only [executeMov, hvalid, if_true, resolve_of_resolves hsrc, memWrite_of_cellIndex hn,
    Result.ofExcept]

/-- The destination is tested before the source is read, and both tests fail with one kind. -/
theorem executeMov_of_badAddress {s : State} {n : Word} {src : Operand}
    (h : n.toInt < 1 ∨ 8 < n.toInt ∨ BadAddress src) :
    executeMov (.two (.memoryLocation n) src) s = .fail .invalidMemoryLocation := by
  by_cases hvalid : validAddress n = true
  · have hin := validAddress_iff.1 hvalid
    have hsrc : BadAddress src := by
      rcases h with hlow | hhigh | hsrc
      · omega
      · omega
      · exact hsrc
    simp only [executeMov, hvalid, if_true, resolve_of_badAddress hsrc]
  · simp only [executeMov, if_neg hvalid]

theorem executeMov_of_not_two {o : Operands} (s : State) (h : ∀ o1 o2, o ≠ .two o1 o2) :
    executeMov o s = .fail .invalidNumberOfParams := by
  cases o with
  | zero => rfl
  | one _ => rfl
  | two o1 o2 => exact absurd rfl (h o1 o2)

/-! ### MOV as a step (R52, R68) -/

/-- Settles O20: number 3 and keyword `MOV` are those of the tables, and each form ends its step with
what `executeMov` answers for it. -/
theorem movWritesTheDestinationCell : Obligations.MovWritesTheDestinationCell := by
  refine ⟨writtenAs rfl (by decide), fun s hip => ⟨fun n i src v hn hsrc => ?_, fun n src hbad => ?_,
    fun u src => ?_, fun o ho => ?_⟩⟩
  · exact exec_of_execute_ok (op := .mov) (t := s.setCell i v) hip
      (executeMov_of_resolves (cellIndex_eq_some.2 hn) hsrc) rfl
  · exact exec_of_execute_fail (op := .mov) hip (executeMov_of_badAddress hbad)
  · exact exec_of_execute_fail (op := .mov) hip rfl
  · exact exec_of_execute_fail (op := .mov) hip (executeMov_of_not_two s ho)

end Sys2Proof.Machine

/-! ## Proofs of the family `43_cmp.md`: the comparison of two words as their signed order, the answers
of `execute` for CMP, and CMP as a step. -/

namespace Sys2Proof.Machine

/-! ### The comparison of two words (R69) -/

theorem compareW_of_lt {x y : Word} (h : x.toInt < y.toInt) : compareW x y = .lessThan := by
  rw [compareW, if_pos h]

theorem compareW_of_gt {x y : Word} (h : x.toInt > y.toInt) : compareW x y = .greaterThan := by
  rw [compareW, if_neg (lt_asymm h), if_pos h]

theorem compareW_of_eq {x y : Word} (h : x.toInt = y.toInt) : compareW x y = .equal := by
  rw [compareW, if_neg (Int.not_lt.2 h.ge), if_neg (Int.not_lt.2 h.le)]

/-- The three answers tell the three cases of the signed order apart. -/
theorem compareW_iff_order (x y : Word) :
    (compareW x y = .lessThan ↔ x.toInt < y.toInt) ∧
    (compareW x y = .greaterThan ↔ x.toInt > y.toInt) ∧
    (compareW x y = .equal ↔ x.toInt = y.toInt) := by
  rcases lt_trichotomy x.toInt y.toInt with h | h | h
  · simp [compareW_of_lt h, h, h.le, h.ne]
  · simp [compareW_of_eq h, h]
  · simp [compareW_of_gt h, h, h.le, h.ne']

/-! ### What `execute` answers for CMP (R69) -/

theorem executeCmp_of_resolves {s : State} {o1 o2 : Operand} {x y : Word} (h1 : Resolves s o1 x)
    (h2 : Resolves s o2 y) : executeCmp (.two o1 o2) s = .ok (s.setCr (compareW x y)) 0 := by
  simp only [executeCmp, resolve_of_resolves h1, resolve_of_resolves h2]

/-- The operands are read in order, and a bad address in either fails with one kind. -/
theorem executeCmp_of_badAddress {o1 o2 : Operand} (s : State) (h : BadAddress o1 ∨ BadAddress o2) :
    executeCmp (.two o1 o2) s = .fail .invalidMemoryLocation := by
  rcases h with hbad1 | hbad2
  · simp only [executeCmp, resolve_of_badAddress hbad1]
  · rcases resolves_or_badAddress s o1 with ⟨x, _, hread1⟩ | ⟨_, hread1⟩
    · simp only [executeCmp, hread1, resolve_of_badAddress hbad2]
    · simp only [executeCmp, hread1]

theorem executeCmp_of_not_two {o : Operands} (s : State) (h : ∀ o1 o2, o ≠ .two o1 o2) :
    executeCmp o s = .fail .invalidNumberOfParams := by
  cases o with
  | zero => rfl
  | one _ => rfl
  | two o1 o2 => exact absurd rfl (h o1 o2)

/-! ### CMP as a step (R52, R69) -/

/-- Settles O21: number 6 and keyword `CMP` are those of the tables, and each form ends its step with
what `executeCmp` answers for it; the flag that is set is `compareW`. -/
theorem cmpSetsTheFlagBySignedOrder : Obligations.CmpSetsTheFlagBySignedOrder := by
  refine ⟨writtenAs rfl (by decide), fun s hip => ⟨fun o1 o2 x y h1 h2 => ?_, fun o1 o2 hbad => ?_,
    fun o ho => ?_⟩⟩
  · refine ⟨compareW x y, ?_, compareW_iff_order x y⟩
    exact exec_of_execute_ok (op := .cmp) (t := s.setCr (compareW x y)) hip
      (executeCmp_of_resolves h1 h2) rfl
  · exact exec_of_execute_fail (op := .cmp) hip (executeCmp_of_badAddress s hbad)
  · exact exec_of_execute_fail (op := .cmp) hip (executeCmp_of_not_two s ho)

end Sys2Proof.Machine

/-! ## Proofs of the family `44_jumps.md`: the conditions of the three jumps, the answers of the body
they share, and each jump as an instance of it. -/

namespace Sys2Proof.Machine

/-! ### The jump conditions (R71 to R73) -/

theorem condCRJpos_iff {cr : CmpResult} : condCRJpos cr = true ↔ cr = .greaterThan :=
  decide_eq_true_iff

theorem condVJpos_iff {x : Word} : condVJpos x = true ↔ x.toInt > 0 := decide_eq_true_iff

theorem condCRJz_iff {cr : CmpResult} : condCRJz cr = true ↔ cr = .equal := decide_eq_true_iff

theorem condVJz_iff {x : Word} : condVJz x = true ↔ x.toInt = 0 := decide_eq_true_iff

theorem condCRJnz_iff {cr : CmpResult} : condCRJnz cr = true ↔ cr ≠ .equal := decide_eq_true_iff

theorem condVJnz_iff {x : Word} : condVJnz x = true ↔ x.toInt ≠ 0 := decide_eq_true_iff

/-! ### What the body of the jumps answers (R70) -/

section
variable (condCR : CmpResult → Bool) (condV : Word → Bool) {s : State}

theorem executeJump_one_integer (d : Word) (hlic : s.lic = .comparison) :
    executeJump condCR condV (.one (.integer d)) s = .ok s (if condCR s.cr then d else 0) := by
  simp only [executeJump, hlic, ne_eq, not_true_eq_false, if_false]

theorem executeJump_one_memoryLocation (a : Word) (hlic : s.lic = .comparison) :
    executeJump condCR condV (.one (.memoryLocation a)) s = .fail .invalidOperand := by
  simp only [executeJump, hlic, ne_eq, not_true_eq_false, if_false]

/-- The test of `LIC` comes before the test of the operand. -/
theorem executeJump_one_of_not_comparison (o1 : Operand) (hlic : s.lic ≠ .comparison) :
    executeJump condCR condV (.one o1) s = .fail .illegalJumpInstruction := by
  simp only [executeJump, if_pos hlic]

theorem executeJump_two_of_resolves {o1 : Operand} {x : Word} (d : Word) (h1 : Resolves s o1 x) :
    executeJump condCR condV (.two o1 (.integer d)) s = .ok s (if condV x then d else 0) := by
  simp only [executeJump, resolve_of_resolves h1]

theorem executeJump_two_of_badAddress {o1 : Operand} (d : Word) (h1 : BadAddress o1) :
    executeJump condCR condV (.two o1 (.integer d)) s = .fail .invalidMemoryLocation := by
  simp only [executeJump, resolve_of_badAddress h1]

end

/-! ### The jumps as steps (R52, R57, R70) -/

theorem exec_of_execute_jump {op : Opcode} {o : Operands} {s : State} {d : Word}
    (hcategory : category op = .jump) (hok : execute op o s = .ok s d) :
    exec (op.instr (.ops o)) s = .next (s.afterJump d) := by
  rw [exec_opcode, dispatch, hok, hcategory, finish_jump]

/-- Every form of an opcode of category Jump whose body is `executeJump condCR condV`. -/
theorem exec_jump {op : Opcode} {condCR : CmpResult → Bool} {condV : Word → Bool}
    (hbody : ∀ o s, execute op o s = executeJump condCR condV o s)
    (hcategory : category op = .jump) {s : State} (hip : 0 ≤ s.ip) :
    (∀ d : Word, s.lic = .comparison → exec (op.instr (.ops (.one (.integer d)))) s =
      .next (s.afterJump (if condCR s.cr then d else 0))) ∧
    (∀ (o1 : Operand) (x d : Word), Resolves s o1 x →
      exec (op.instr (.ops (.two o1 (.integer d)))) s =
        .next (s.afterJump (if condV x then d else 0))) ∧
    (∀ o1 : Operand, s.lic ≠ .comparison → exec (op.instr (.ops (.one o1))) s =
      .next (s.afterFailure .jump .illegalJumpInstruction)) ∧
    (∀ a : Word, s.lic = .comparison → exec (op.instr (.ops (.one (.memoryLocation a)))) s =
      .next (s.afterFailure .jump .invalidOperand)) ∧
    (∀ (o1 : Operand) (a : Word), exec (op.instr (.ops (.two o1 (.memoryLocation a)))) s =
      .next (s.afterFailure .jump .invalidOperand)) ∧
    (∀ (o1 : Operand) (d : Word), BadAddress o1 →
      exec (op.instr (.ops (.two o1 (.integer d)))) s =
        .next (s.afterFailure .jump .invalidMemoryLocation)) ∧
    exec (op.instr (.ops .zero)) s = .next (s.afterFailure .jump .invalidNumberOfParams) := by
  have hjump : ∀ {o d}, executeJump condCR condV o s = .ok s d →
      exec (op.instr (.ops o)) s = .next (s.afterJump d) := fun h =>
    exec_of_execute_jump hcategory ((hbody _ s).trans h)
  have hfail : ∀ {o k}, executeJump condCR condV o s = .fail k →
      exec (op.instr (.ops o)) s = .next (s.afterFailure .jump k) := fun h =>
    hcategory ▸ exec_of_execute_fail hip ((hbody _ s).trans h)
  refine ⟨fun d hlic => ?_, fun o1 x d h1 => ?_, fun o1 hlic => ?_, fun a hlic => ?_,
    fun o1 a => ?_, fun o1 d h1 => ?_, ?_⟩
  · exact hjump (executeJump_one_integer condCR condV d hlic)
  · exact hjump (executeJump_two_of_resolves condCR condV d h1)
  · exact hfail (executeJump_one_of_not_comparison condCR condV o1 hlic)
  · exact hfail (executeJump_one_memoryLocation condCR condV a hlic)
  · exact hfail rfl
  · exact hfail (executeJump_two_of_badAddress condCR condV d h1)
  · exact hfail rfl

/-- Settles O22: number 9 and keyword `JPOS` are those of the tables, and JPOS is the shared body
with the conditions GreaterThan and positive. -/
theorem jposJumpsWhenPositive : Obligations.JposJumpsWhenPositive := by
  have hbody : ∀ o s, execute .jpos o s = executeJump condCRJpos condVJpos o s := fun _ _ => rfl
  refine ⟨writtenAs rfl (by decide), fun s hip => ?_⟩
  simpa only [Opcode.instr, condCRJpos_iff, condVJpos_iff] using exec_jump hbody rfl hip

/-- Settles O23: number 7 and keyword `JZ` are those of the tables, and JZ is the shared body with
the conditions Equal and zero. -/
theorem jzJumpsWhenZeroOrEqual : Obligations.JzJumpsWhenZeroOrEqual := by
  have hbody : ∀ o s, execute .jz o s = executeJump condCRJz condVJz o s := fun _ _ => rfl
  refine ⟨writtenAs rfl (by decide), fun s hip => ?_⟩
  simpa only [Opcode.instr, condCRJz_iff, condVJz_iff] using exec_jump hbody rfl hip

/-- Settles O24: number 8 and keyword `JNZ` are those of the tables, and JNZ is the shared body with
the conditions not Equal and not zero. -/
theorem jnzJumpsWhenNotZeroOrNotEqual : Obligations.JnzJumpsWhenNotZeroOrNotEqual := by
  have hbody : ∀ o s, execute .jnz o s = executeJump condCRJnz condVJnz o s := fun _ _ => rfl
  refine ⟨writtenAs rfl (by decide), fun s hip => ?_⟩
  simpa only [Opcode.instr, condCRJnz_iff, condVJnz_iff] using exec_jump hbody rfl hip

end Sys2Proof.Machine

/-! ## Proofs of the family `45_stack.md`: what a push and a pop answer, PUSH and POP form by form, each
as a step, and the two steps one after the other. -/

namespace Sys2Proof.Machine

/-! ### The stack primitives (R23, R24) -/

section
variable {s : State} {v : Word}

theorem push_of_room (h : s.params.stackDepth ≠ some s.stack.length) :
    s.push v = .ok (s.pushRaw v) 0 := by
  rcases push_cases s v with ⟨hfull, _⟩ | ⟨_, hpush⟩
  · exact absurd hfull h
  · exact hpush

theorem push_of_full (h : s.params.stackDepth = some s.stack.length) :
    s.push v = .machineFault .stackOverflow := by
  rcases push_cases s v with ⟨_, hpush⟩ | ⟨hroom, _⟩
  · exact hpush
  · exact absurd h hroom

theorem pop_of_entry {rest : List Word} (h : s.stack = v :: rest) :
    s.pop = .ok (v, s.setStack rest) := by
  simp only [State.pop, h]

theorem pop_of_empty (h : s.stack = []) : s.pop = .error .stackNotReady := by
  simp only [State.pop, h]

end

/-! ### The count of a 1-operand instruction (R74, R75) -/

theorem operands_zero_or_two {o : Operands} (h : ∀ o1, o ≠ .one o1) :
    o = .zero ∨ ∃ o1 o2, o = .two o1 o2 := by
  cases o with
  | zero => exact .inl rfl
  | one o1 => exact absurd rfl (h o1)
  | two o1 o2 => exact .inr ⟨o1, o2, rfl⟩

/-! ### What `execute` answers for PUSH (R74) -/

theorem executePush_of_resolves {s : State} {o1 : Operand} {v : Word} (h1 : Resolves s o1 v) :
    executePush (.one o1) s = s.push v := by
  simp only [executePush, resolve_of_resolves h1]

/-- The operand is read before the capacity is tested. -/
theorem executePush_of_badAddress {o1 : Operand} (s : State) (h1 : BadAddress o1) :
    executePush (.one o1) s = .fail .invalidMemoryLocation := by
  simp only [executePush, resolve_of_badAddress h1]

theorem executePush_of_not_one {o : Operands} (s : State) (h : ∀ o1, o ≠ .one o1) :
    executePush o s = .fail .invalidNumberOfParams := by
  rcases operands_zero_or_two h with rfl | ⟨o1, o2, rfl⟩
  · rfl
  · rfl

/-! ### What `execute` answers for POP (R75) -/

theorem executePop_of_entry {s : State} {n v : Word} {i : Fin Config.numCells} {rest : List Word}
    (hn : cellIndex n = some i) (hs : s.stack = v :: rest) :
    executePop (.one (.memoryLocation n)) s = .ok ((s.setStack rest).setCell i v) 0 := by
  have hvalid : validAddress n = true := by rw [validAddress, hn, Option.isSome_some]
  simp only [executePop, pop_of_entry hs, hvalid, if_true, memWrite_of_cellIndex hn,
    Result.ofExcept]

/-- The stack is tested before the address. -/
theorem executePop_of_empty {s : State} (n : Word) (hs : s.stack = []) :
    executePop (.one (.memoryLocation n)) s = .fail .stackNotReady := by
  simp only [executePop, pop_of_empty hs]

theorem executePop_of_badAddress {s : State} {n : Word} (hs : s.stack ≠ [])
    (hn : n.toInt < 1 ∨ 8 < n.toInt) :
    executePop (.one (.memoryLocation n)) s = .fail .invalidMemoryLocation := by
  have hinvalid : ¬ validAddress n = true := by rw [validAddress_iff]; omega
  obtain ⟨v, rest, hentry⟩ := List.exists_cons_of_ne_nil hs
  simp only [executePop, pop_of_entry hentry, if_neg hinvalid]

theorem executePop_of_not_one {o : Operands} (s : State) (h : ∀ o1, o ≠ .one o1) :
    executePop o s = .fail .invalidNumberOfParams := by
  rcases operands_zero_or_two h with rfl | ⟨o1, o2, rfl⟩
  · rfl
  · rfl

/-! ### PUSH and POP as steps (R52, R59, R74, R75) -/

theorem exec_of_execute_machineFault {op : Opcode} {o : Operands} {s : State} {f : FaultStatus}
    (hfault : execute op o s = .machineFault f) :
    exec (op.instr (.ops o)) s = .next { s with fs := f } := by
  rw [exec_opcode, dispatch, hfault]
  rfl

theorem exec_push_of_room {s : State} {o1 : Operand} {v : Word} (hip : 0 ≤ s.ip)
    (h1 : Resolves s o1 v) (hroom : s.params.stackDepth ≠ some s.stack.length) :
    exec (.push (.ops (.one o1))) s = .next { s with
      stack := v :: s.stack, lic := .data, ip := s.ip + 1 } :=
  exec_of_execute_ok (op := .push) (t := s.pushRaw v) hip
    ((executePush_of_resolves h1).trans (push_of_room hroom)) rfl

theorem exec_pop_of_entry {s : State} {n v : Word} {i : Fin 8} {rest : List Word} (hip : 0 ≤ s.ip)
    (hn : n.toInt = i.val + 1) (hs : s.stack = v :: rest) :
    exec (.pop (.ops (.one (.memoryLocation n)))) s = .next { s with
      stack := rest, cells := s.cells.set i.val v, lic := .data, ip := s.ip + 1 } :=
  exec_of_execute_ok (op := .pop) (t := (s.setStack rest).setCell i v) hip
    (executePop_of_entry (cellIndex_eq_some.2 hn) hs) rfl

/-- Settles O26: number 4 and keyword `PUSH` are those of the tables, and each form ends its step with
what `executePush` answers for it. -/
theorem pushPutsTheValueOnTop : Obligations.PushPutsTheValueOnTop := by
  refine ⟨writtenAs rfl (by decide), fun s hip => ⟨fun o1 v h1 => ⟨fun hroom => ?_, fun hfull => ?_⟩,
    fun o1 hbad => ?_, fun o ho => ?_⟩⟩
  · exact exec_push_of_room hip h1 hroom
  · exact exec_of_execute_machineFault (op := .push)
      ((executePush_of_resolves h1).trans (push_of_full hfull))
  · exact exec_of_execute_fail (op := .push) hip (executePush_of_badAddress s hbad)
  · exact exec_of_execute_fail (op := .push) hip (executePush_of_not_one s ho)

/-- Settles O27: number 5 and keyword `POP` are those of the tables, and each form ends its step with
what `executePop` answers for it. -/
theorem popMovesTheTopToTheCell : Obligations.PopMovesTheTopToTheCell := by
  refine ⟨writtenAs rfl (by decide), fun s hip => ⟨fun n i v rest hn hs => ?_, fun n hs => ?_,
    fun n hs hn => ?_, fun u => ?_, fun o ho => ?_⟩⟩
  · exact exec_pop_of_entry hip hn hs
  · exact exec_of_execute_fail (op := .pop) hip (executePop_of_empty n hs)
  · exact exec_of_execute_fail (op := .pop) hip (executePop_of_badAddress hs hn)
  · exact exec_of_execute_fail (op := .pop) hip rfl
  · exact exec_of_execute_fail (op := .pop) hip (executePop_of_not_one s ho)

/-- Settles O28: after the PUSH the pushed value is the top and the old stack is what lies below it,
so the POP writes that value and gives the old stack back. -/
theorem pushThenPopRoundTrips : Obligations.PushThenPopRoundTrips := by
  intro s o1 v n i hip h1 hroom hn
  have hip' : 0 ≤ s.ip + 1 := by omega
  refine ⟨_, exec_push_of_room hip h1 hroom, (exec_pop_of_entry hip' hn rfl).trans ?_⟩
  rw [Int.add_assoc, one_add_one_eq_two]

end Sys2Proof.Machine

/-! ## Proofs of the family `46_output_exit.md`: OUTPUT and EXIT as steps, the end of the run after an
EXIT, and the slots that fail at the parse stage (PFAIL and the reserved words). -/

namespace Sys2Proof.Machine

/-! ### OUTPUT (R76) -/

theorem executeOutput_of_resolves {s : State} {o1 : Operand} {v : Word} (h1 : Resolves s o1 v) :
    executeOutput (.one o1) s = .ok (s.emit (.output v)) 0 := by
  simp only [executeOutput, resolve_of_resolves h1]

theorem executeOutput_of_badAddress {o1 : Operand} (s : State) (h1 : BadAddress o1) :
    executeOutput (.one o1) s = .fail .invalidMemoryLocation := by
  simp only [executeOutput, resolve_of_badAddress h1]

theorem executeOutput_of_not_one {o : Operands} (s : State) (h : ∀ o1, o ≠ .one o1) :
    executeOutput o s = .fail .invalidNumberOfParams := by
  rcases operands_zero_or_two h with rfl | ⟨o1, o2, rfl⟩
  · rfl
  · rfl

/-- Settles O29: number 10 and keyword `OUTPUT` are those of the tables, and each form ends its step
with what `executeOutput` answers for it. -/
theorem outputEmitsTheValue : Obligations.OutputEmitsTheValue := by
  refine ⟨writtenAs rfl (by decide), fun s hip => ⟨fun o1 v h1 => ?_, fun o1 hbad => ?_,
    fun o ho => ?_⟩⟩
  · exact exec_of_execute_ok (op := .output) (t := s.emit (.output v)) hip
      (executeOutput_of_resolves h1) rfl
  · exact exec_of_execute_fail (op := .output) hip (executeOutput_of_badAddress s hbad)
  · exact exec_of_execute_fail (op := .output) hip (executeOutput_of_not_one s ho)

/-! ### EXIT and the end of the run (R56, R64, R77) -/

theorem category_eq_exit_iff {op : Opcode} : category op = .exit ↔ op = .exit := by
  cases op <;> decide

theorem status_of_exit {s : State} (hfs : s.fs = .noFault) (hlic : s.lic = .exit) :
    s.status = .complete .exitHalt := by
  simp only [State.status, hfs, hlic, ne_eq, not_true_eq_false, if_false, if_true]

theorem step_ne_next_of_exit {s : State} (hfs : s.fs = .noFault) (hlic : s.lic = .exit)
    (u : State) : step s ≠ .next u := by
  rw [step_of_stop (fetch_of_exit hfs hlic)]
  nofun

/-- EXIT writes its category and nothing else, whatever its operands. -/
theorem exec_exit {s : State} (o : Operands) (hip : 0 ≤ s.ip) :
    exec (.exit (.ops o)) s = .next { s with lic := .exit, ip := s.ip + 1 } :=
  exec_of_execute_ok (op := .exit) (t := s) hip rfl rfl

/-- `LIC` is written only with the category of a dispatched opcode, and Exit is the category of EXIT
alone. -/
theorem dispatched_exit_of_lic {i : Instr} {s t : State} (hexec : exec i s = .next t)
    (hexit : t.lic = .exit) : s.lic = .exit ∨ dispatched i = some .exit := by
  obtain ⟨hdispatched, hother⟩ := everyDispatchWritesTheCategory i s t hexec
  cases hi : dispatched i with
  | none => exact .inl ((hother hi).symm.trans hexit)
  | some op =>
    rcases hdispatched op hi with hlic | ⟨_, rfl⟩
    · exact .inr (congrArg some (category_eq_exit_iff.1 (hlic.symm.trans hexit)))
    · exact .inl hexit

/-- Settles O30: number 11 and keyword `EXIT` are those of the tables; the state that EXIT leaves has
Exit in `LIC`, which completes a run without a machine fault and stops its fetch. -/
theorem exitCompletesTheRun : Obligations.ExitCompletesTheRun := by
  refine ⟨writtenAs rfl (by decide), fun s o hip => ⟨_, exec_exit o hip, rfl, fun hfs => ⟨?_, ?_⟩⟩,
    fun i s t => dispatched_exit_of_lic⟩
  · exact status_of_exit hfs rfl
  · exact step_ne_next_of_exit hfs rfl

/-! ### Slots that fail at the parse stage (R54, R79, R80) -/

/-- A slot whose record is a parse-stage failure reports it and moves on; it is not dispatched, so
`LIC` stays. -/
theorem exec_of_parseFail {i : Instr} {k : FailureKind} {s : State} (hip : 0 ≤ s.ip)
    (h : i.record = .parseFail k) : exec i s = .next (s.afterParseFailure k) := by
  rw [exec_eq_recordStep, h, recordStep_parseFail, takeFailure_of_nonneg hip]

/-- R48 as a chain of tests. The code 5 of InvalidCommand needs no test of its own, because every
other code is read as InvalidCommand too. -/
theorem decodePFAIL_eq_ite (v2 : Word) :
    decodePFAIL v2 =
      if v2 = 2 then .invalidNumberOfParams
      else if v2 = 6 then .invalidMemoryLocation
      else if v2 = 7 then .badIntegerLiteral
      else .invalidCommand := by
  have htest : ∀ c : Word, v2 = c ↔ v2.toNat = c.toNat := fun c => BitVec.toNat_inj.symm
  simp only [htest]
  unfold decodePFAIL
  split
  case h_5 h2 _ h6 h7 => exact ((if_neg h2).trans ((if_neg h6).trans (if_neg h7))).symm
  all_goals simp [*]

/-- Settles O32: the opcode number 15 makes a PFAIL word, whose kind is read from `v2` alone. -/
theorem pfailReportsItsKind : Obligations.PfailReportsItsKind := by
  constructor
  · intro cnt t1 t2 v1 v2
    rw [decode_pfail (congrArg Fields.opc (ofWord_toWord _)), ofWord_toWord, decodePFAIL_eq_ite]
  · intro s k hip
    exact exec_of_parseFail hip rfl

theorem decode_count3 {n : BitVec 4} {op : Opcode} (hop : opcodeOfNumber n.toNat = some op)
    (t1 t2 : BitVec 1) (v1 v2 : Word) :
    decode (Fields.toWord ⟨n, 3, t1, t2, v1, v2⟩) = op.instr .count3 := by
  rw [decode_opcode (op := op) (by rw [ofWord_toWord, hop]), ofWord_toWord]
  rfl

/-- Settles O33: the reserved numbers and the reserved count are read from `opc` and `cnt` alone, and
the record of such a word is a parse-stage failure. -/
theorem reservedWordsFailAtTheParseStage : Obligations.ReservedWordsFailAtTheParseStage := by
  refine ⟨fun cnt t1 t2 v1 v2 => ⟨?_, ?_, ?_⟩, fun n op hop => decode_count3 hop,
    fun s hip => ⟨fun i hi => ?_, fun op => ?_⟩⟩
  · exact decode_reserved12 (congrArg Fields.opc (ofWord_toWord _))
  · exact decode_reserved13 (congrArg Fields.opc (ofWord_toWord _))
  · exact decode_reserved14 (congrArg Fields.opc (ofWord_toWord _))
  · have hrecord : i.record = .parseFail .invalidCommand := by
      simp only [List.mem_cons, List.not_mem_nil, or_false] at hi
      rcases hi with rfl | rfl | rfl <;> rfl
    exact exec_of_parseFail hip hrecord
  · exact exec_of_parseFail hip (record_opcode op .count3)

end Sys2Proof.Machine

/-! ## Proofs of the family `60_exceptions.md`: the table of failure kinds (R82), from both
sides. -/

namespace Sys2Proof.Machine

/-! ### No kind outside the table -/

theorem canRaise_of_execute_fail {op : Opcode} {o : Operands} {s : State} {k : FailureKind}
    (h : execute op o s = .fail k) : canRaise (op.instr (.ops o)) k = true := by
  have hcase := execute_case op o s
  rw [h] at hcase
  cases hcase with
  | fail hk => exact hk

theorem record_eq_parseFail_iff {op : Opcode} {args : OperandField} {k : FailureKind} :
    args.record op = .parseFail k ↔ args = .count3 ∧ k = .invalidNumberOfParams := by
  cases args <;> simp [OperandField.record, eq_comm]

theorem canRaise_of_parseFail {i : Instr} {k : FailureKind} (h : i.record = .parseFail k) :
    canRaise i k = true := by
  cases i with
  | nop => cases h
  | add _ | mul _ | mov _ | push _ | pop _ | cmp _ | jz _ | jnz _ | jpos _ | output _ | exit _ =>
    obtain ⟨rfl, rfl⟩ := record_eq_parseFail_iff.1 h
    rfl
  | reserved12 | reserved13 | reserved14 =>
    cases h
    rfl
  | pfail _ =>
    cases h
    simp [canRaise]

/-- A reported failure is that of a parse-stage slot or of a dispatched `execute` (R54, R58). -/
theorem canRaise_of_ev {i : Instr} {s t : State} {j : Int} {k : FailureKind}
    (hexec : exec i s = .next t) (hev : t.ev = s.ev ++ [.failure j k]) : canRaise i k = true := by
  rcases instr_cases i with rfl | ⟨k', hrecord, hx⟩ | ⟨op, o, rfl⟩
  · cases hexec
    simp at hev
  · rw [hx] at hexec
    cases hexec
    obtain ⟨rfl, rfl⟩ : s.ip = j ∧ k' = k := by simpa using hev
    exact canRaise_of_parseFail hrecord
  · obtain rfl := exec_opcode_next hexec
    exact canRaise_of_execute_fail (execute_fail_of_ev hev)

/-! ### Every kind of the table -/

/-- `execute` of this opcode fails with this kind for some operands, at some slot of a program. -/
def CanFail (op : Opcode) (k : FailureKind) : Prop :=
  ∃ (o : Operands) (s : State), 0 ≤ s.ip ∧ execute op o s = .fail k

/-- The step reports what `execute` fails with, in the slot that is executing (R58, R84). -/
theorem CanFail.exec_reports {op : Opcode} {k : FailureKind} (h : CanFail op k) :
    ∃ (o : Operands) (s t : State), 0 ≤ s.ip ∧ exec (op.instr (.ops o)) s = .next t ∧
      t.ev = s.ev ++ [.failure s.ip k] := by
  obtain ⟨o, s, hip, hfail⟩ := h
  exact ⟨o, s, _, hip, exec_of_execute_fail hip hfail, rfl⟩

/-- The reset state has an empty stack and no CMP before it, which is where most kinds arise. -/
theorem canFail_at_reset {op : Opcode} {k : FailureKind} (o : Operands)
    (h : execute op o State.reset = .fail k) : CanFail op k :=
  ⟨o, State.reset, le_rfl, h⟩

theorem badAddress_zero : BadAddress (.memoryLocation 0) := .inl (by decide)

/-- The row of ADD and MUL: too few entries, or an operand. -/
theorem canFail_binaryOnStack {op : Opcode} {f : Word → Word → Word}
    (hbody : ∀ o s, execute op o s = binaryOnStack f o s) {k : FailureKind}
    (hk : k = .stackNotReady ∨ k = .invalidNumberOfParams) : CanFail op k := by
  rcases hk with rfl | rfl
  · exact canFail_at_reset .zero ((hbody _ _).trans (binaryOnStack_of_short _ (by decide)))
  · exact canFail_at_reset (.one (.integer 0)) (hbody _ _)

/-- The row of JPOS, JZ and JNZ: no operand, a jump distance in a cell, 1 operand without a CMP
before it, a bad address. -/
theorem canFail_jump {op : Opcode} {condCR : CmpResult → Bool} {condV : Word → Bool}
    (hbody : ∀ o s, execute op o s = executeJump condCR condV o s) {k : FailureKind}
    (hk : k = .invalidNumberOfParams ∨ k = .invalidOperand ∨ k = .illegalJumpInstruction ∨
      k = .invalidMemoryLocation) : CanFail op k := by
  rcases hk with rfl | rfl | rfl | rfl
  · exact canFail_at_reset .zero (hbody _ _)
  · exact canFail_at_reset (.two (.integer 0) (.memoryLocation 0)) (hbody _ _)
  · exact canFail_at_reset (.one (.integer 0))
      ((hbody _ _).trans (executeJump_one_of_not_comparison _ _ _ (by decide)))
  · exact canFail_at_reset (.two (.memoryLocation 0) (.integer 0))
      ((hbody _ _).trans (executeJump_two_of_badAddress _ _ _ badAddress_zero))

/-- The row of POP: only a stack with an entry lets the address be tested (R75). -/
theorem canFail_pop {k : FailureKind}
    (hk : k = .stackNotReady ∨ k = .invalidNumberOfParams ∨ k = .invalidOperand ∨
      k = .invalidMemoryLocation) : CanFail .pop k := by
  rcases hk with rfl | rfl | rfl | rfl
  · exact canFail_at_reset (.one (.memoryLocation 1))
      (executePop_of_empty (s := State.reset) 1 rfl)
  · exact canFail_at_reset .zero rfl
  · exact canFail_at_reset (.one (.integer 0)) rfl
  · exact ⟨.one (.memoryLocation 0), State.reset.setStack [0], le_rfl,
      executePop_of_badAddress (s := State.reset.setStack [0]) (by simp) badAddress_zero⟩

/-- R82 row by row: each kind of the row of an opcode is met. -/
theorem canFail_of_canRaise {op : Opcode} {k : FailureKind}
    (h : canRaise (op.instr (.ops .zero)) k = true) : CanFail op k := by
  cases op <;> simp only [Opcode.instr, canRaise, decide_eq_true_eq, Bool.false_eq_true] at h
  case add => exact canFail_binaryOnStack (fun _ _ => rfl) h
  case mul => exact canFail_binaryOnStack (fun _ _ => rfl) h
  case mov =>
    rcases h with rfl | rfl | rfl
    · exact canFail_at_reset .zero rfl
    · exact canFail_at_reset (.two (.integer 0) (.integer 0)) rfl
    · exact canFail_at_reset (.two (.memoryLocation 0) (.integer 0))
        (executeMov_of_badAddress (s := State.reset) (n := 0) (src := .integer 0)
          (.inl (by decide)))
  case cmp =>
    rcases h with rfl | rfl
    · exact canFail_at_reset .zero rfl
    · exact canFail_at_reset (.two (.memoryLocation 0) (.integer 0))
        (executeCmp_of_badAddress (o2 := .integer 0) State.reset (.inl badAddress_zero))
  case push =>
    rcases h with rfl | rfl
    · exact canFail_at_reset .zero rfl
    · exact canFail_at_reset (.one (.memoryLocation 0))
        (executePush_of_badAddress State.reset badAddress_zero)
  case output =>
    rcases h with rfl | rfl
    · exact canFail_at_reset .zero rfl
    · exact canFail_at_reset (.one (.memoryLocation 0))
        (executeOutput_of_badAddress State.reset badAddress_zero)
  case pop => exact canFail_pop h
  case jz => exact canFail_jump (fun _ _ => rfl) h
  case jnz => exact canFail_jump (fun _ _ => rfl) h
  case jpos => exact canFail_jump (fun _ _ => rfl) h

/-- Settles O12: a report comes from the table, and each entry of the table has operands and a
state that make `execute` fail with it. -/
theorem failureKindsAreTheTableOfR82 : Obligations.FailureKindsAreTheTableOfR82 :=
  ⟨fun _ _ _ _ _ => canRaise_of_ev, fun _ _ h => (canFail_of_canRaise h).exec_reports⟩

end Sys2Proof.Machine

/-! ## Proofs of the family `70_reset_and_hazards.md`: what a reset during a run discards, and when
a 1-operand jump is legal. -/

namespace Sys2Proof.Machine

/-! ### Reset during a run (R90, R94) -/

/-- Reset reads the inputs of the run and nothing else. -/
theorem assertReset_congr {s t : State} (him : t.im = s.im) (hparams : t.params = s.params) :
    t.assertReset = s.assertReset := by
  rw [State.assertReset, State.assertReset, him, hparams]

/-- Settles O2: a run writes neither the program nor the parameters, which are all that reset
reads. -/
theorem resetDiscardsTheRun : Obligations.ResetDiscardsTheRun := by
  intro s t hreach
  obtain ⟨him, hparams⟩ := noStepWritesTheProgram s t hreach
  exact ⟨assertReset_congr him hparams, assertReset_congr him hparams⟩

/-! ### When a 1-operand jump is legal (R70) -/

theorem isFlagJump_cases {j : Instr} (h : isFlagJump j = true) :
    ∃ (op : Opcode) (o1 : Operand), (op = .jz ∨ op = .jnz ∨ op = .jpos) ∧ j = op.instr (.ops (.one o1)) := by
  unfold isFlagJump at h
  split at h
  · exact ⟨.jz, _, .inl rfl, rfl⟩
  · exact ⟨.jnz, _, .inr (.inl rfl), rfl⟩
  · exact ⟨.jpos, _, .inr (.inr rfl), rfl⟩
  · cases h

/-- The step ends in the state of a failure exactly when `execute` fails with its kind: the report
in the trace tells. -/
theorem exec_eq_afterFailure_iff {op : Opcode} {o : Operands} {s : State} {k : FailureKind}
    (hip : 0 ≤ s.ip) :
    exec (op.instr (.ops o)) s = .next (s.afterFailure (category op) k) ↔
      execute op o s = .fail k := by
  refine ⟨fun hexec => ?_, exec_of_execute_fail hip⟩
  exact execute_fail_of_ev (congrArg State.ev (exec_opcode_next hexec)).symm

theorem executeJump_one_illegal_iff (condCR : CmpResult → Bool) (condV : Word → Bool)
    (o1 : Operand) (s : State) :
    executeJump condCR condV (.one o1) s = .fail .illegalJumpInstruction ↔
      s.lic ≠ .comparison := by
  refine ⟨fun hfail hlic => ?_, executeJump_one_of_not_comparison condCR condV o1⟩
  cases o1 with
  | integer d => simp [executeJump_one_integer condCR condV d hlic] at hfail
  | memoryLocation a => simp [executeJump_one_memoryLocation condCR condV a hlic] at hfail

/-- R70: the test of `LIC` alone decides whether a 1-operand jump fails with
IllegalJumpInstruction. -/
theorem flagJump_illegal_iff {j : Instr} {s : State} (hj : isFlagJump j = true)
    (hip : 0 ≤ s.ip) :
    exec j s = .next (s.afterFailure .jump .illegalJumpInstruction) ↔ s.lic ≠ .comparison := by
  obtain ⟨op, o1, hop, rfl⟩ := isFlagJump_cases hj
  have hcategory : category op = .jump := by rcases hop with rfl | rfl | rfl <;> rfl
  have hbody : ∃ condCR condV, ∀ o, execute op o s = executeJump condCR condV o s := by
    rcases hop with rfl | rfl | rfl <;> exact ⟨_, _, fun _ => rfl⟩
  obtain ⟨condCR, condV, hbody⟩ := hbody
  rw [← hcategory, exec_eq_afterFailure_iff hip, hbody, executeJump_one_illegal_iff]

/-! ### What the slot before it leaves in `LIC` and `CR` (R9, R55, R98) -/

theorem category_eq_comparison_iff {op : Opcode} : category op = .comparison ↔ op = .cmp := by
  cases op <;> decide

/-- Only StackOverflow keeps a dispatched instruction from writing its category, and it leaves a
machine fault. -/
theorem lic_of_dispatched {i : Instr} {s t : State} {op : Opcode} (hexec : exec i s = .next t)
    (hfs : t.fs = .noFault) (hi : dispatched i = some op) : t.lic = category op := by
  obtain ⟨hdispatched, -⟩ := everyDispatchWritesTheCategory i s t hexec
  rcases hdispatched op hi with hlic | ⟨-, rfl⟩
  · exact hlic
  · cases hfs

/-- `CR` changes only by the effect of a dispatched instruction. -/
theorem cr_of_not_dispatched {i : Instr} {s t : State} (hexec : exec i s = .next t)
    (hi : dispatched i = none) : t.cr = s.cr := by
  refine (exec_cases hexec).keeps State.cr fun op o _ _ hop _ => ?_
  rw [hop, dispatched_opcode] at hi
  cases hi

/-- Settles O25: the slot before leaves its category in `LIC` when it was dispatched, and
Comparison, which the jump asks for, is the category of CMP alone. -/
theorem flagJumpNeedsAPrecedingCompare : Obligations.FlagJumpNeedsAPrecedingCompare := by
  intro i j s t hexec hip hfs hj
  refine ⟨fun op hi hop => ?_, fun hi => ?_, fun hi => ⟨?_, ?_⟩⟩
  · rw [flagJump_illegal_iff hj hip, lic_of_dispatched hexec hfs hi]
    exact mt category_eq_comparison_iff.1 hop
  · rw [Ne, flagJump_illegal_iff hj hip, not_not, lic_of_dispatched hexec hfs hi]
    rfl
  · exact (everyDispatchWritesTheCategory i s t hexec).2 hi
  · exact cr_of_not_dispatched hexec hi

end Sys2Proof.Machine
